-- ==== Sys2Proof/Word.lean ====
section
/-! DEFINITION. The words of the machine (spec/00_scope.md R4, R5): every value is unsigned. -/

namespace Sys2Proof

/-- An 8-bit value: a general register, a timer, a byte of memory (`REG_W` of R4). -/
abbrev Byte := BitVec 8

/-- A 16-bit value: `I`, `pc`, a stack entry, an instruction word (`I_W`, `PC_W` of R4). -/
abbrev Word := BitVec 16

/-- The 12-bit address immediate `NNN` (R71). -/
abbrev Addr12 := BitVec 12

/-- The number of a general register, V0 to VF (R20): the fields `X` and `Y` (R73). -/
abbrev RegId := Fin 16

/-- The register VF, `V[15]` (R20, R21). -/
abbrev vF : RegId := 15

end Sys2Proof
end

