-- ==== Sys2Proof/Syntax.lean ====
section
/-! DEFINITION. The 34 instructions of base CHIP-8, one constructor per row of spec/opcode_table.json
(spec/30_encoding.md R75), in the table's order. -/

namespace Sys2Proof

/-- An instruction with its operands (R71, R73). `x`, `y` are register numbers, `nn` the 8-bit
immediate, `nnn` the 12-bit address, `n` the count of sprite rows. -/
inductive Instr where
  /-- `CLS`, 00E0. -/
  | cls
  /-- `RET`, 00EE. -/
  | ret
  /-- `JP addr`, 1NNN. -/
  | jp (nnn : Addr12)
  /-- `CALL addr`, 2NNN. -/
  | call (nnn : Addr12)
  /-- `SE Vx, byte`, 3XNN. -/
  | seByte (x : RegId) (nn : Byte)
  /-- `SNE Vx, byte`, 4XNN. -/
  | sneByte (x : RegId) (nn : Byte)
  /-- `SE Vx, Vy`, 5XY0. -/
  | seReg (x y : RegId)
  /-- `LD Vx, byte`, 6XNN. -/
  | ldByte (x : RegId) (nn : Byte)
  /-- `ADD Vx, byte`, 7XNN. -/
  | addByte (x : RegId) (nn : Byte)
  /-- `LD Vx, Vy`, 8XY0. -/
  | ldReg (x y : RegId)
  /-- `OR Vx, Vy`, 8XY1. -/
  | orReg (x y : RegId)
  /-- `AND Vx, Vy`, 8XY2. -/
  | andReg (x y : RegId)
  /-- `XOR Vx, Vy`, 8XY3. -/
  | xorReg (x y : RegId)
  /-- `ADD Vx, Vy`, 8XY4. -/
  | addReg (x y : RegId)
  /-- `SUB Vx, Vy`, 8XY5. -/
  | subReg (x y : RegId)
  /-- `SHR Vx`, 8XY6; `y` is an operand field the operation ignores (R75). -/
  | shr (x y : RegId)
  /-- `SUBN Vx, Vy`, 8XY7. -/
  | subnReg (x y : RegId)
  /-- `SHL Vx`, 8XYE; `y` is an operand field the operation ignores (R75). -/
  | shl (x y : RegId)
  /-- `SNE Vx, Vy`, 9XY0. -/
  | sneReg (x y : RegId)
  /-- `LD I, addr`, ANNN. -/
  | ldI (nnn : Addr12)
  /-- `JP V0, addr`, BNNN. -/
  | jpV0 (nnn : Addr12)
  /-- `RND Vx, byte`, CXNN. -/
  | rnd (x : RegId) (nn : Byte)
  /-- `DRW Vx, Vy, n`, DXYN; `n` counts sprite rows, 0 to 15 (R73). -/
  | drw (x y : RegId) (n : Nat)
  /-- `SKP Vx`, EX9E. -/
  | skp (x : RegId)
  /-- `SKNP Vx`, EXA1. -/
  | sknp (x : RegId)
  /-- `LD Vx, DT`, FX07. -/
  | ldFromDT (x : RegId)
  /-- `LD Vx, K`, FX0A. -/
  | waitKey (x : RegId)
  /-- `LD DT, Vx`, FX15. -/
  | ldDT (x : RegId)
  /-- `LD ST, Vx`, FX18. -/
  | ldST (x : RegId)
  /-- `ADD I, Vx`, FX1E. -/
  | addI (x : RegId)
  /-- `LD F, Vx`, FX29. -/
  | ldF (x : RegId)
  /-- `LD B, Vx`, FX33. -/
  | bcd (x : RegId)
  /-- `LD [I], Vx`, FX55. -/
  | dump (x : RegId)
  /-- `LD Vx, [I]`, FX65. -/
  | load (x : RegId)
  deriving DecidableEq, Repr

end Sys2Proof
end

