-- ==== Sys2Proof/WellFormed.lean ====
section
/-! DEFINITION. Which instructions exist: the operand ranges of spec/30_encoding.md R73. Register
numbers, `NN` and `NNN` have types that hold exactly their range; the one range left to check is that
of the row count of `DRW`. -/

namespace Sys2Proof

/-- The operands are in the ranges of R73: the sprite rows of `DRW` number at most 15. -/
def Instr.wf : Instr → Bool
  | .drw _ _ n => decide (n ≤ 15)
  | .cls | .ret | .jp _ | .call _ | .seByte _ _ | .sneByte _ _ | .seReg _ _ | .ldByte _ _
  | .addByte _ _ | .ldReg _ _ | .orReg _ _ | .andReg _ _ | .xorReg _ _ | .addReg _ _ | .subReg _ _
  | .shr _ _ | .subnReg _ _ | .shl _ _ | .sneReg _ _ | .ldI _ | .jpV0 _ | .rnd _ _ | .skp _
  | .sknp _ | .ldFromDT _ | .waitKey _ | .ldDT _ | .ldST _ | .addI _ | .ldF _ | .bcd _ | .dump _
  | .load _ => true

end Sys2Proof
end

