-- ==== Sys2Proof/Decode.lean ====
section
/-! DEFINITION. The decoder and the encoder (spec/30_encoding.md R70 to R81). Decoding is a pure function of
the 16-bit word, strict: a word is an instruction only if it matches the whole canonical pattern of its row
(R74, D9). -/

namespace Sys2Proof

/-- Why bytes are no instruction. -/
inductive DecodeError where
  /-- The word matches no row of R75 (R76). -/
  | unrecognized (w : Word)
  /-- Fewer than two bytes: every instruction is 16 bits long (R70). -/
  | truncated
  deriving DecidableEq, Repr

/-- `combine(low, high)` of R143: the 16-bit value with `high` in bits 15:8 (R54). -/
def combine (low high : Byte) : Word :=
  BitVec.ofNat 16 (high.toNat * 256 + low.toNat)

/-- `OP`, bits 15:12 (R71). -/
def fieldOP (w : Word) : BitVec 4 := w.extractLsb' 12 4

/-- `X`, bits 11:8, a register number (R71, R73). -/
def fieldX (w : Word) : RegId := (w.extractLsb' 8 4).toFin

/-- `Y`, bits 7:4, a register number (R71, R73). -/
def fieldY (w : Word) : RegId := (w.extractLsb' 4 4).toFin

/-- `N`, bits 3:0 (R71). -/
def fieldN (w : Word) : BitVec 4 := w.extractLsb' 0 4

/-- `NN`, bits 7:0 (R71). -/
def fieldNN (w : Word) : Byte := w.extractLsb' 0 8

/-- `NNN`, bits 11:0 (R71). -/
def fieldNNN (w : Word) : Addr12 := w.extractLsb' 0 12

/-- What a word is that matches no row (R76). -/
def noRow (w : Word) : Except DecodeError Instr := .error (.unrecognized w)

/-- Family 0, matched on all 16 bits (R74). -/
def decode0 (w : Word) : Except DecodeError Instr :=
  if w = 0x00E0 then .ok .cls
  else if w = 0x00EE then .ok .ret
  else noRow w

/-- Family 5, nibble 4 must be 0 (R74). -/
def decode5 (w : Word) : Except DecodeError Instr :=
  if fieldN w = 0x0 then .ok (.seReg (fieldX w) (fieldY w)) else noRow w

/-- Family 8, by nibble 4 (R74). -/
def decode8 (w : Word) : Except DecodeError Instr :=
  if fieldN w = 0x0 then .ok (.ldReg (fieldX w) (fieldY w))
  else if fieldN w = 0x1 then .ok (.orReg (fieldX w) (fieldY w))
  else if fieldN w = 0x2 then .ok (.andReg (fieldX w) (fieldY w))
  else if fieldN w = 0x3 then .ok (.xorReg (fieldX w) (fieldY w))
  else if fieldN w = 0x4 then .ok (.addReg (fieldX w) (fieldY w))
  else if fieldN w = 0x5 then .ok (.subReg (fieldX w) (fieldY w))
  else if fieldN w = 0x6 then .ok (.shr (fieldX w) (fieldY w))
  else if fieldN w = 0x7 then .ok (.subnReg (fieldX w) (fieldY w))
  else if fieldN w = 0xE then .ok (.shl (fieldX w) (fieldY w))
  else noRow w

/-- Family 9, nibble 4 must be 0 (R74). -/
def decode9 (w : Word) : Except DecodeError Instr :=
  if fieldN w = 0x0 then .ok (.sneReg (fieldX w) (fieldY w)) else noRow w

/-- Family E, by the low byte (R74). -/
def decodeE (w : Word) : Except DecodeError Instr :=
  if fieldNN w = 0x9E then .ok (.skp (fieldX w))
  else if fieldNN w = 0xA1 then .ok (.sknp (fieldX w))
  else noRow w

/-- Family F, by the low byte (R74). -/
def decodeF (w : Word) : Except DecodeError Instr :=
  if fieldNN w = 0x07 then .ok (.ldFromDT (fieldX w))
  else if fieldNN w = 0x0A then .ok (.waitKey (fieldX w))
  else if fieldNN w = 0x15 then .ok (.ldDT (fieldX w))
  else if fieldNN w = 0x18 then .ok (.ldST (fieldX w))
  else if fieldNN w = 0x1E then .ok (.addI (fieldX w))
  else if fieldNN w = 0x29 then .ok (.ldF (fieldX w))
  else if fieldNN w = 0x33 then .ok (.bcd (fieldX w))
  else if fieldNN w = 0x55 then .ok (.dump (fieldX w))
  else if fieldNN w = 0x65 then .ok (.load (fieldX w))
  else noRow w

/-- `Decode(w)` of R93: the row of R75 the word is an instance of. The high nibble selects a family;
families 0, 5, 8, 9, E and F test their other fixed bits (R74, D9). -/
def decode (w : Word) : Except DecodeError Instr :=
  if fieldOP w = 0x0 then decode0 w
  else if fieldOP w = 0x1 then .ok (.jp (fieldNNN w))
  else if fieldOP w = 0x2 then .ok (.call (fieldNNN w))
  else if fieldOP w = 0x3 then .ok (.seByte (fieldX w) (fieldNN w))
  else if fieldOP w = 0x4 then .ok (.sneByte (fieldX w) (fieldNN w))
  else if fieldOP w = 0x5 then decode5 w
  else if fieldOP w = 0x6 then .ok (.ldByte (fieldX w) (fieldNN w))
  else if fieldOP w = 0x7 then .ok (.addByte (fieldX w) (fieldNN w))
  else if fieldOP w = 0x8 then decode8 w
  else if fieldOP w = 0x9 then decode9 w
  else if fieldOP w = 0xA then .ok (.ldI (fieldNNN w))
  else if fieldOP w = 0xB then .ok (.jpV0 (fieldNNN w))
  else if fieldOP w = 0xC then .ok (.rnd (fieldX w) (fieldNN w))
  else if fieldOP w = 0xD then .ok (.drw (fieldX w) (fieldY w) (fieldN w).toNat)
  else if fieldOP w = 0xE then decodeE w
  else decodeF w

/-- Decoding from bytes as memory holds them: the first byte is the HIGH byte (R54); two bytes an
instruction (R70), the rest of the bytes handed back. -/
def decodeBytes : List Byte → Except DecodeError (Instr × List Byte)
  | high :: low :: rest =>
    match decode (combine low high) with
    | .ok i => .ok (i, rest)
    | .error e => .error e
  | [_] => .error .truncated
  | [] => .error .truncated

/-- The two bytes of an instruction word in memory order, the high byte first (R54). -/
def wordBytes (w : Word) : List Byte := [w.extractLsb' 8 8, w.extractLsb' 0 8]

/-- The instruction the decoder reads from an instruction whose bits are `w`, numbered as
spec/opcode_table.json numbers them (every row is one 16-bit word). -/
def decodeTableWord (nbits w : Nat) : Option Instr :=
  match decodeBytes (wordBytes (BitVec.ofNat 16 (w % 2 ^ nbits))) with
  | .ok (i, _) => some i
  | .error _ => none

/-! ## The encoder (R81) -/

/-- Format A: `match | NNN` (R72, R81). -/
def encA (m : Word) (nnn : Addr12) : Word := m ||| nnn.setWidth 16

/-- A register number at bits 11:8 (R71). -/
def atX (x : RegId) : Word := (BitVec.ofFin x : BitVec 4).setWidth 16 <<< 8

/-- A register number at bits 7:4 (R71). -/
def atY (y : RegId) : Word := (BitVec.ofFin y : BitVec 4).setWidth 16 <<< 4

/-- Format RI: `match | (X << 8) | NN` (R72, R81). -/
def encRI (m : Word) (x : RegId) (nn : Byte) : Word := m ||| atX x ||| nn.setWidth 16

/-- Format RR: `match | (X << 8) | (Y << 4)`, the sub-opcode inside `match` (R72, R81). -/
def encRR (m : Word) (x y : RegId) : Word := m ||| atX x ||| atY y

/-- Format RRN: `match | (X << 8) | (Y << 4) | N` (R72, R81). -/
def encRRN (m : Word) (x y : RegId) (n : Nat) : Word :=
  m ||| atX x ||| atY y ||| (BitVec.ofNat 4 n).setWidth 16

/-- Format R: `match | (X << 8)`, the sub-opcode byte inside `match` (R72, R81). -/
def encR (m : Word) (x : RegId) : Word := m ||| atX x

/-- The word of an instruction: the `match` value of its row of R75 with the operand fields ORed in
(R81). -/
def encode : Instr → Word
  | .cls => 0x00E0
  | .ret => 0x00EE
  | .jp nnn => encA 0x1000 nnn
  | .call nnn => encA 0x2000 nnn
  | .seByte x nn => encRI 0x3000 x nn
  | .sneByte x nn => encRI 0x4000 x nn
  | .seReg x y => encRR 0x5000 x y
  | .ldByte x nn => encRI 0x6000 x nn
  | .addByte x nn => encRI 0x7000 x nn
  | .ldReg x y => encRR 0x8000 x y
  | .orReg x y => encRR 0x8001 x y
  | .andReg x y => encRR 0x8002 x y
  | .xorReg x y => encRR 0x8003 x y
  | .addReg x y => encRR 0x8004 x y
  | .subReg x y => encRR 0x8005 x y
  | .shr x y => encRR 0x8006 x y
  | .subnReg x y => encRR 0x8007 x y
  | .shl x y => encRR 0x800E x y
  | .sneReg x y => encRR 0x9000 x y
  | .ldI nnn => encA 0xA000 nnn
  | .jpV0 nnn => encA 0xB000 nnn
  | .rnd x nn => encRI 0xC000 x nn
  | .drw x y n => encRRN 0xD000 x y n
  | .skp x => encR 0xE09E x
  | .sknp x => encR 0xE0A1 x
  | .ldFromDT x => encR 0xF007 x
  | .waitKey x => encR 0xF00A x
  | .ldDT x => encR 0xF015 x
  | .ldST x => encR 0xF018 x
  | .addI x => encR 0xF01E x
  | .ldF x => encR 0xF029 x
  | .bcd x => encR 0xF033 x
  | .dump x => encR 0xF055 x
  | .load x => encR 0xF065 x

/-- The bytes of an instruction in memory order. -/
def encodeBytes (i : Instr) : List Byte := wordBytes (encode i)

/-- The opcode map of R75 as it stands there: the `match` and `mask` columns, in the table's order. A word
`w` is an instance of a row exactly when `(w & mask) = match` (R72). -/
def opcodeMap : List (Word × Word) :=
  [(0x00E0, 0xFFFF), (0x00EE, 0xFFFF), (0x1000, 0xF000), (0x2000, 0xF000), (0x3000, 0xF000),
   (0x4000, 0xF000), (0x5000, 0xF00F), (0x6000, 0xF000), (0x7000, 0xF000), (0x8000, 0xF00F),
   (0x8001, 0xF00F), (0x8002, 0xF00F), (0x8003, 0xF00F), (0x8004, 0xF00F), (0x8005, 0xF00F),
   (0x8006, 0xF00F), (0x8007, 0xF00F), (0x800E, 0xF00F), (0x9000, 0xF00F), (0xA000, 0xF000),
   (0xB000, 0xF000), (0xC000, 0xF000), (0xD000, 0xF000), (0xE09E, 0xF0FF), (0xE0A1, 0xF0FF),
   (0xF007, 0xF0FF), (0xF00A, 0xF0FF), (0xF015, 0xF0FF), (0xF018, 0xF0FF), (0xF01E, 0xF0FF),
   (0xF029, 0xF0FF), (0xF033, 0xF0FF), (0xF055, 0xF0FF), (0xF065, 0xF0FF)]

/-- The row of `opcodeMap` an instruction belongs to, `(match, mask)` (R75). -/
def Instr.row : Instr → Word × Word
  | .cls => (0x00E0, 0xFFFF)
  | .ret => (0x00EE, 0xFFFF)
  | .jp _ => (0x1000, 0xF000)
  | .call _ => (0x2000, 0xF000)
  | .seByte _ _ => (0x3000, 0xF000)
  | .sneByte _ _ => (0x4000, 0xF000)
  | .seReg _ _ => (0x5000, 0xF00F)
  | .ldByte _ _ => (0x6000, 0xF000)
  | .addByte _ _ => (0x7000, 0xF000)
  | .ldReg _ _ => (0x8000, 0xF00F)
  | .orReg _ _ => (0x8001, 0xF00F)
  | .andReg _ _ => (0x8002, 0xF00F)
  | .xorReg _ _ => (0x8003, 0xF00F)
  | .addReg _ _ => (0x8004, 0xF00F)
  | .subReg _ _ => (0x8005, 0xF00F)
  | .shr _ _ => (0x8006, 0xF00F)
  | .subnReg _ _ => (0x8007, 0xF00F)
  | .shl _ _ => (0x800E, 0xF00F)
  | .sneReg _ _ => (0x9000, 0xF00F)
  | .ldI _ => (0xA000, 0xF000)
  | .jpV0 _ => (0xB000, 0xF000)
  | .rnd _ _ => (0xC000, 0xF000)
  | .drw _ _ _ => (0xD000, 0xF000)
  | .skp _ => (0xE09E, 0xF0FF)
  | .sknp _ => (0xE0A1, 0xF0FF)
  | .ldFromDT _ => (0xF007, 0xF0FF)
  | .waitKey _ => (0xF00A, 0xF0FF)
  | .ldDT _ => (0xF015, 0xF0FF)
  | .ldST _ => (0xF018, 0xF0FF)
  | .addI _ => (0xF01E, 0xF0FF)
  | .ldF _ => (0xF029, 0xF0FF)
  | .bcd _ => (0xF033, 0xF0FF)
  | .dump _ => (0xF055, 0xF0FF)
  | .load _ => (0xF065, 0xF0FF)

end Sys2Proof
end

