-- ==== Sys2Proof/Machine/Flags.lean ====
section
/-! DEFINITION. The arithmetic helpers and the flags they give (spec/42_alu.md R143, R144): exact sums and
differences of unsigned bytes, narrowed mod 256. -/

namespace Sys2Proof.Machine

/-- A flag as the byte VF holds: 0x00 or 0x01 (R21). -/
def flagByte (c : Bool) : Byte := if c then 1 else 0

/-- `checked_add` of R143: the sum mod 256, and overflow iff `a + b > 255`. -/
def checkedAdd (a b : Byte) : Byte × Bool :=
  (BitVec.ofNat 8 (a.toNat + b.toNat), decide (255 < a.toNat + b.toNat))

/-- `checked_sub` of R143: the difference mod 256, and borrow iff `a < b`. -/
def checkedSub (a b : Byte) : Byte × Bool :=
  (BitVec.ofInt 8 (a.toNat - b.toNat), decide (a.toNat < b.toNat))

/-- The result of `SHR` and the bit shifted out (R138): bit 7 becomes 0, bit 0 falls out. -/
def shiftRight (t : Byte) : Byte × Bool := (t >>> 1, t.getLsbD 0)

/-- The result of `SHL` and the bit shifted out (R140): bit 0 becomes 0, bit 7 falls out. -/
def shiftLeft (t : Byte) : Byte × Bool := (t <<< 1, t.getLsbD 7)

end Sys2Proof.Machine
end

