-- ==== Sys2Proof/Config.lean ====
section
/-! DEFINITION. What an implementation fixes (spec/00_scope.md R4) and the one free value of the
machine, the random byte (R102). The parameters `FONT` and `SPRITE_EDGE`, whose values a test could
show wrong, stand in Machine/Params.lean under these same names' namespace. -/

namespace Sys2Proof.Config

/-- `MEM_SIZE`: bytes of memory, addresses 0x000 to 0xFFF (R4, R50). -/
abbrev memSize : Nat := 4096

/-- `STACK_DEPTH`: return addresses the stack holds (R4, R24). -/
abbrev stackDepth : Nat := 16

/-- `NKEYS`: keypad slots (R4, R27). -/
abbrev nKeys : Nat := 16

/-- `FB_W`: framebuffer width in pixels (R4, R28). -/
abbrev fbWidth : Nat := 64

/-- `FB_H`: framebuffer height in pixels (R4, R28). -/
abbrev fbHeight : Nat := 32

/-- `FONT_LEN`: 16 glyphs of 5 bytes (R4, R52). -/
abbrev fontLen : Nat := 80

/-- `ROM_BASE`: address of the first ROM byte and the value of pc after reset (R4, R242). -/
abbrev romBase : Nat := 0x200

/-- `ROM_MAX`: the largest ROM image in bytes (R4, R100). -/
abbrev romMax : Nat := 3584

/-- What a sprite does at the right and bottom edge of the screen: the two values of `SPRITE_EDGE`
(R183). -/
inductive SpriteEdge where
  | clip
  | wrap
  deriving DecidableEq, Repr

/-- FREE VALUE (log 1): the `n`-th byte the random source supplies, `draw8()` of R102 (D20). It has no
body: every statement about it holds whatever the bytes are. -/
opaque draw8 : Nat → Byte

end Sys2Proof.Config
end

