-- ==== Sys2Proof/Machine/Params.lean ====
section
/-! DEFINITION. The two parameters of spec/00_scope.md R4 whose value the document does not fix: `FONT` and
`SPRITE_EDGE`. -/

namespace Sys2Proof.Config

/-- `FONT`: the 80 bytes of R52, glyph 0 first (PRESUMED by the spec from general knowledge, D29; log 4). -/
def font : List Byte :=
  [0xF0, 0x90, 0x90, 0x90, 0xF0,  0x20, 0x60, 0x20, 0x20, 0x70,
   0xF0, 0x10, 0xF0, 0x80, 0xF0,  0xF0, 0x10, 0xF0, 0x10, 0xF0,
   0x90, 0x90, 0xF0, 0x10, 0x10,  0xF0, 0x80, 0xF0, 0x10, 0xF0,
   0xF0, 0x80, 0xF0, 0x90, 0xF0,  0xF0, 0x10, 0x20, 0x40, 0x40] ++
  [0xF0, 0x90, 0xF0, 0x90, 0xF0,  0xF0, 0x90, 0xF0, 0x10, 0xF0,
   0xF0, 0x90, 0xF0, 0x90, 0x90,  0xE0, 0x90, 0xE0, 0x90, 0xE0,
   0xF0, 0x80, 0x80, 0x80, 0xF0,  0xE0, 0x90, 0x90, 0x90, 0xE0,
   0xF0, 0x80, 0xF0, 0x80, 0xF0,  0xF0, 0x80, 0xF0, 0x80, 0x80]

/-- `SPRITE_EDGE`: this hardware clips (R4, R183, D8; log 5). -/
def spriteEdge : SpriteEdge := .clip

end Sys2Proof.Config
end

