-- ==== Sys2Proof/Machine/State.lean ====
section
/-! DEFINITION. The state of the core (spec/10_state.md R20 to R33), its fault causes
(spec/60_exceptions.md R210) and its reset values (R34). -/

namespace Sys2Proof.Machine

/-- The sub-causes of `OutOfRange` (R210, R212). -/
inductive OutOfRange where
  /-- Fetch with `pc > 0xFFE` (R92); information: `pc`. -/
  | fetch
  /-- `DRW`, `LD Vx, [I]` past 0xFFF (R166); information: `I`. -/
  | memRead
  /-- `LD B, Vx`, `LD [I], Vx` past 0xFFF (R166); information: `I`. -/
  | memWrite
  /-- `CALL` with 16 addresses on the stack (R111); information: `pc`. -/
  | stackOverflow
  /-- `RET` with an empty stack (R112); information: `pc`. -/
  | stackUnderflow
  /-- `SKP`, `SKNP` with `V[X] > 15` (R190, R191); information: `V[X]`. -/
  | keypadIndex
  /-- LoadROM of more than 3584 bytes (R100); information: the length. -/
  | romLoad
  deriving DecidableEq, Repr

/-- The fault causes of R210, each with its information value. They are what the `fault` register
holds: `State.raise` records one and the machine goes on to a NEXT state, frozen until Reset (R213,
R214, log 2). No meaning and no step answers `Host.Outcome.fault`. Safe: the hardware's own. -/
inductive Fault where
  /-- Raised by Decode on a word that matches no row of R75 (R93, R211). Safe: the hardware's own. -/
  | unrecognizedInstruction (w : Word)
  /-- Raised by the fetch, by the instruction or by LoadROM, as the sub-cause says (R212). Safe: the
  hardware's own. -/
  | outOfRange (kind : OutOfRange) (info : Nat)
  deriving DecidableEq, Repr

/-- Why an instruction has no meaning here. No arm of `exec` answers it: all 34 are modelled. -/
inductive Refusal where
  /-- Answered by an arm of `exec` whose instruction has no meaning yet: none is left. Safe. -/
  | notModelled (mnemonic : String)
  deriving DecidableEq, Repr

/-- The 4096 bytes of memory (R32): the cells that differ from what an unlisted address reads as
(`Memory.unlisted`), by strictly rising address (`Memory.wf`; log 11). -/
abbrev Memory := List Host.Cell

/-- The 64 x 32 one-bit pixels (R28): 32 rows from the top, pixel `(x, y)` is bit `x` of row `y`
(log 10). -/
abbrev Framebuffer := Vector (BitVec 64) Config.fbHeight

/-- The whole state of the core: the closed list of R33, and the model's own counter of random bytes.
A reset value stands in `State.reset`. -/
structure State where
  /-- The 16 general registers (R20); `V[15]` is VF (R21). -/
  V : Vector Byte 16
  /-- The address register (R22). -/
  I : Word
  /-- The program counter: the address of the next instruction, or of the one being executed (R23). -/
  pc : Word
  /-- The return stack, storage of its own (R24). -/
  stack : Vector Word Config.stackDepth
  /-- How many return addresses are on the stack, 0 to 16 (R24). -/
  sp : Fin (Config.stackDepth + 1)
  /-- The delay timer (R25). -/
  DT : Byte
  /-- The sound timer (R26). -/
  ST : Byte
  /-- Slot `k` is true while key `k` is held down (R27). -/
  keypad : Vector Bool Config.nKeys
  /-- The framebuffer (R28). -/
  fb : Framebuffer
  /-- Set while the machine waits for a key (R29). -/
  halted : Bool
  /-- The most recently fetched instruction word (R30). -/
  currentOpcode : Word
  /-- Memory (R32). -/
  mem : Memory
  /-- `NONE` or the cause recorded by `raise` (R31). -/
  fault : Option Fault
  /-- The model's own: how many random bytes have been drawn (log 1). -/
  draws : Nat
  deriving DecidableEq, Repr

/-- The state after Reset (R34, R240). Memory lists nothing: every byte reads as its reset value. -/
def State.reset : State where
  V := Vector.replicate 16 0
  I := 0
  pc := 0x200
  stack := Vector.replicate Config.stackDepth 0
  sp := 0
  DT := 0
  ST := 0
  keypad := Vector.replicate Config.nKeys false
  fb := Vector.replicate Config.fbHeight 0
  halted := false
  currentOpcode := 0
  mem := []
  fault := none
  draws := 0

end Sys2Proof.Machine
end

