-- ==== Sys2Proof/Machine/Memory.lean ====
section
/-! DEFINITION. Memory (spec/20_memory.md): reading and writing one byte and runs of bytes over the canonical
list of cells. The range check of R53 is `State.checked` of Machine/Ops.lean. -/

namespace Sys2Proof.Machine

/-- What an address with no cell reads as: its reset contents, the font at 0x000 to 0x04F and zero
elsewhere (R34, R52). -/
def Memory.unlisted (a : Nat) : Byte := Config.font.getD a 0

/-- `Mem[a]`. -/
def Memory.read : Memory → Nat → Byte
  | [], a => Memory.unlisted a
  | (b, w) :: m, a => if a = b then w else Memory.read m a

/-- A cell for address `a` in front of `m`, unless `a` reads as `v` without one. -/
def Memory.cons (a : Nat) (v : Byte) (m : Memory) : Memory :=
  if v = Memory.unlisted a then m else (a, v) :: m

/-- `Mem[a] <- v`, keeping the canonical form. -/
def Memory.write : Memory → Nat → Byte → Memory
  | [], a, v => Memory.cons a v []
  | (b, w) :: m, a, v =>
    if a < b then Memory.cons a v ((b, w) :: m)
    else if a = b then Memory.cons a v m
    else (b, w) :: Memory.write m a v

/-- The bytes at `a`, `a + 1`, ..., `a + n - 1` (R55). -/
def Memory.readBytes (m : Memory) (a n : Nat) : List Byte :=
  (List.range n).map fun k => m.read (a + k)

/-- Store bytes at ascending addresses from `a` (R55). -/
def Memory.writeBytes (m : Memory) (a : Nat) : List Byte → Memory
  | [] => m
  | v :: vs => Memory.writeBytes (m.write a v) (a + 1) vs

/-- The canonical form from address `lo` on: addresses strictly rising, at least `lo` and inside memory,
and no cell that holds what its address reads as without one. -/
def Memory.wfFrom (lo : Nat) : Memory → Bool
  | [] => true
  | (a, v) :: m =>
    decide (lo ≤ a) && decide (a < Config.memSize) && decide (v ≠ Memory.unlisted a) &&
      Memory.wfFrom (a + 1) m

/-- The canonical form of memory (log 11). -/
def Memory.wf (m : Memory) : Bool := Memory.wfFrom 0 m

end Sys2Proof.Machine
end

