-- ==== Sys2Proof/Machine/Ops.lean ====
section
/-! DEFINITION. The named operations over the state that the meanings share (the primitives of
spec/00_scope.md R6): registers, pc, stack, taking a fault, the range check, the timers' tick. -/

namespace Sys2Proof.Machine

/-- What `exec` answers. -/
abbrev Result := Host.Outcome State Fault Refusal

/-- `V[x]` (R6). -/
def State.readV (s : State) (x : RegId) : Byte := s.V[x]

/-- `V[x] <- v` (R6); no register is hardwired (R20). -/
def State.writeV (s : State) (x : RegId) (v : Byte) : State := { s with V := s.V.set x v }

/-- `V[x] <- r`, then `V[0xF] <- f`, the flag last, so that it remains when `x` is VF (R142, D10). -/
def State.writeVFlag (s : State) (x : RegId) (r f : Byte) : State := (s.writeV x r).writeV vF f

/-- `I <- a` (R22). -/
def State.setI (s : State) (a : Word) : State := { s with I := a }

/-- `pc <- target` (R23). -/
def State.setPc (s : State) (target : Word) : State := { s with pc := target }

/-- The default way of R23: `pc <- pc + 2`. -/
def State.advance (s : State) : State := s.setPc (s.pc + 2)

/-- The skip way of R23: `pc <- pc + 4` if the condition holds, else `pc + 2`. -/
def State.skipIf (s : State) (c : Bool) : State := s.setPc (if c then s.pc + 4 else s.pc + 2)

/-- `DT <- v` (R25). -/
def State.setDT (s : State) (v : Byte) : State := { s with DT := v }

/-- `ST <- v` (R26). -/
def State.setST (s : State) (v : Byte) : State := { s with ST := v }

/-- `halted <- b` (R29). -/
def State.setHalted (s : State) (b : Bool) : State := { s with halted := b }

/-- `keypad[k] <- b` (R27). -/
def State.setKey (s : State) (k : Fin Config.nKeys) (b : Bool) : State :=
  { s with keypad := s.keypad.set k b }

/-- `currentOpcode <- w` (R30). -/
def State.setOpcode (s : State) (w : Word) : State := { s with currentOpcode := w }

/-- The framebuffer replaced (R28). -/
def State.setFb (s : State) (fb : Framebuffer) : State := { s with fb := fb }

/-- The memory replaced (R32). -/
def State.setMem (s : State) (m : Memory) : State := { s with mem := m }

/-- The next random byte counted (R102; log 1). -/
def State.countDraw (s : State) : State := { s with draws := s.draws + 1 }

/-- TAKING A FAULT, `raise F(info)` of R213: the cause goes into the `fault` register and nothing else is
written: pc stays on the faulting instruction, no state is saved, no mode changes, control goes nowhere.
There is no return from a fault (R214): `runStep` and the other transactions leave a faulted state as it
is, and only Reset clears it. -/
def State.raise (s : State) (f : Fault) : State := { s with fault := some f }

/-- The code of a sub-cause of `OutOfRange` in the table of R210 (D24). -/
def OutOfRange.code : OutOfRange → Nat
  | .fetch => 2
  | .memRead => 3
  | .memWrite => 4
  | .stackOverflow => 5
  | .stackUnderflow => 6
  | .keypadIndex => 7
  | .romLoad => 8

/-- The code of a fault cause, 1 to 8 (R210, D24). -/
def Fault.code : Fault → Nat
  | .unrecognizedInstruction _ => 1
  | .outOfRange kind _ => kind.code

/-- The information value recorded with a fault cause (R210, D24). -/
def Fault.info : Fault → Nat
  | .unrecognizedInstruction w => w.toNat
  | .outOfRange _ info => info

/-- The code the `fault` register holds: 0 is `NONE` (R31, R210, D24). -/
def State.faultCode (s : State) : Nat :=
  match s.fault with
  | none => 0
  | some f => f.code

/-- The information value the `fault` register holds; `NONE` has none (R31, R210). -/
def State.faultInfo (s : State) : Option Nat :=
  match s.fault with
  | none => none
  | some f => some f.info

/-- Push a return address: write `stack[sp]`, then `sp + 1`; `none` when 16 are there (R24, R111). -/
def State.push (s : State) (a : Word) : Option State :=
  if h : s.sp.val < Config.stackDepth then
    some { s with stack := s.stack.set s.sp.val a, sp := ⟨s.sp.val + 1, by omega⟩ }
  else none

/-- Pop a return address: `sp - 1`, then read `stack[sp]`, the entry keeping its value; `none` when the
stack is empty (R24, R112). -/
def State.pop (s : State) : Option (Word × State) :=
  if h : 0 < s.sp.val then
    some (s.stack[s.sp.val - 1], { s with sp := ⟨s.sp.val - 1, by omega⟩ })
  else none

/-- The range check of R166 on `k >= 1` bytes at `I`, a sum of integers that never wraps:
`I + k - 1 <= 0xFFF`. -/
def State.inRange (s : State) (k : Nat) : Bool := decide (s.I.toNat + k - 1 ≤ 0xFFF)

/-- `RangeCheck(kind, k)` of R166 before the instruction's first read or write: the fault with
information `I`, or the instruction's effect. -/
def State.checked (s : State) (kind : OutOfRange) (k : Nat) (effect : State) : State :=
  if s.inRange k then effect else s.raise (.outOfRange kind s.I.toNat)

/-- The tick of R95: each timer down by one, stopping at 0. -/
def State.tick (s : State) : State :=
  { s with DT := if s.DT ≠ 0 then s.DT - 1 else s.DT, ST := if s.ST ≠ 0 then s.ST - 1 else s.ST }

/-- The tone of R96: `ST` is exactly 1 as the tick begins. -/
def State.tickTone (s : State) : Bool := decide (s.ST = 1)

end Sys2Proof.Machine
end

