-- ==== Sys2Proof/Machine/Operands.lean ====
section
/-! DEFINITION. Operand forms: the unsigned immediates of spec/30_encoding.md R73 and the one addressing mode
of spec/43_index_memory.md R166. -/

namespace Sys2Proof.Machine

/-- `zext_16(NNN)` (R5, R73). -/
def zextAddr (nnn : Addr12) : Word := nnn.setWidth 16

/-- `zext_16(V[x])` (R5). -/
def zextByte (b : Byte) : Word := b.setWidth 16

/-- The effective address of byte `k` of an access: the integer sum `I + k`, never reduced (R166). -/
def State.effAddr (s : State) (k : Nat) : Nat := s.I.toNat + k

/-- `5 * zext_16(V[x])`, the address of a glyph (R162). -/
def glyphAddr (v : Byte) : Word := BitVec.ofNat 16 (5 * v.toNat)

/-- The three decimal digits of a byte, hundreds first (R163). -/
def bcdDigits (v : Byte) : List Byte :=
  [BitVec.ofNat 8 (v.toNat / 100), BitVec.ofNat 8 (v.toNat / 10 % 10), BitVec.ofNat 8 (v.toNat % 10)]

/-- The key whose code a register holds: `none` above 15, with no masking (R190). -/
def keyIndex (v : Byte) : Option (Fin Config.nKeys) :=
  if h : v.toNat < Config.nKeys then some ⟨v.toNat, h⟩ else none

/-- The least key that is down (R192, D7). -/
def State.leastKey (s : State) : Option (Fin Config.nKeys) :=
  (List.finRange Config.nKeys).find? fun k => s.keypad[k]

/-- The code of a key as a register value, 0x00 to 0x0F (R192). -/
def keyCode (k : Fin Config.nKeys) : Byte := BitVec.ofNat 8 k.val

end Sys2Proof.Machine
end

