-- ==== Sys2Proof/Machine/Alu.lean ====
section
/-! DEFINITION. Register, arithmetic and logic instructions (spec/42_alu.md R130 to R144). Both operands are
read from the state before any write; a flag is written last (R142). -/

namespace Sys2Proof.Machine

/-- `LD Vx, byte` (R130). -/
def execLdByte (x : RegId) (nn : Byte) (s : State) : Result := .next (s.writeV x nn).advance

/-- `ADD Vx, byte` (R131): no flag. -/
def execAddByte (x : RegId) (nn : Byte) (s : State) : Result :=
  .next (s.writeV x (checkedAdd (s.readV x) nn).1).advance

/-- `LD Vx, Vy` (R132). -/
def execLdReg (x y : RegId) (s : State) : Result := .next (s.writeV x (s.readV y)).advance

/-- `OR Vx, Vy` (R133): no flag (D11). -/
def execOrReg (x y : RegId) (s : State) : Result :=
  .next (s.writeV x (s.readV x ||| s.readV y)).advance

/-- `AND Vx, Vy` (R134): no flag (D11). -/
def execAndReg (x y : RegId) (s : State) : Result :=
  .next (s.writeV x (s.readV x &&& s.readV y)).advance

/-- `XOR Vx, Vy` (R135): no flag (D11). -/
def execXorReg (x y : RegId) (s : State) : Result :=
  .next (s.writeV x (s.readV x ^^^ s.readV y)).advance

/-- `ADD Vx, Vy` (R136): VF is the carry. -/
def execAddReg (x y : RegId) (s : State) : Result :=
  let r := checkedAdd (s.readV x) (s.readV y)
  .next (s.writeVFlag x r.1 (flagByte r.2)).advance

/-- `SUB Vx, Vy` (R137): VF is 1 when there is NO borrow. -/
def execSubReg (x y : RegId) (s : State) : Result :=
  let r := checkedSub (s.readV x) (s.readV y)
  .next (s.writeVFlag x r.1 (flagByte !r.2)).advance

/-- `SUBN Vx, Vy` (R139): `Vy - Vx`, VF is 1 when there is NO borrow. -/
def execSubnReg (x y : RegId) (s : State) : Result :=
  let r := checkedSub (s.readV y) (s.readV x)
  .next (s.writeVFlag x r.1 (flagByte !r.2)).advance

/-- `SHR Vx` (R138): VF is the bit shifted out; the `Y` field takes no part. -/
def execShr (x _y : RegId) (s : State) : Result :=
  let r := shiftRight (s.readV x)
  .next (s.writeVFlag x r.1 (flagByte r.2)).advance

/-- `SHL Vx` (R140): VF is the bit shifted out; the `Y` field takes no part. -/
def execShl (x _y : RegId) (s : State) : Result :=
  let r := shiftLeft (s.readV x)
  .next (s.writeVFlag x r.1 (flagByte r.2)).advance

/-- `RND Vx, byte` (R141): a fresh byte of the random source (R102, D20; log 1) under the mask. -/
def execRnd (x : RegId) (nn : Byte) (s : State) : Result :=
  .next ((s.writeV x (Config.draw8 s.draws &&& nn)).countDraw).advance

end Sys2Proof.Machine
end

