-- ==== Sys2Proof/Machine/Display.lean ====
section
/-! DEFINITION. The framebuffer and the display instructions (spec/44_display.md R180 to R183). -/

namespace Sys2Proof.Machine

/-- Pixel `(x, y)` (R28); off the screen it is off. -/
def Framebuffer.pixel (fb : Framebuffer) (x y : Nat) : Bool :=
  if h : y < Config.fbHeight then fb[y].getLsbD x else false

/-- `fb[y*64 + x] <- old xor b` (R181). -/
def Framebuffer.xorPixel (fb : Framebuffer) (x y : Nat) (b : Bool) : Framebuffer :=
  if h : y < Config.fbHeight then
    fb.set y (fb[y] ^^^ ((BitVec.ofBool b).setWidth 64 <<< x))
  else fb

/-- All pixels off (R180). -/
def Framebuffer.blank : Framebuffer := Vector.replicate Config.fbHeight 0

/-- Where sprite offset `k` from a corner coordinate lands on an axis of `size` pixels: `none` when it is
clipped (R183). -/
def onScreen (edge : Config.SpriteEdge) (size corner k : Nat) : Option Nat :=
  if corner + k < size then some (corner + k)
  else match edge with
    | .clip => none
    | .wrap => some ((corner + k) % size)

/-- The framebuffer and the collision bit while a sprite is drawn. -/
structure Canvas where
  fb : Framebuffer
  collision : Bool
  deriving DecidableEq, Repr

/-- One sprite pixel `b` onto screen pixel `(px, py)`: the collision bit is set when both are on (R181). -/
def Canvas.plot (c : Canvas) (px py : Nat) (b : Bool) : Canvas where
  fb := c.fb.xorPixel px py b
  collision := c.collision || (b && c.fb.pixel px py)

/-- Columns `cols` of the sprite byte `b` on screen row `py`: column `col` is bit `7 - col` (R182). -/
def Canvas.drawCols (edge : Config.SpriteEdge) (x0 py : Nat) (b : Byte) : List Nat → Canvas → Canvas
  | [], c => c
  | col :: cols, c =>
    Canvas.drawCols edge x0 py b cols
      (match onScreen edge Config.fbWidth x0 col with
        | some px => c.plot px py (b.getLsbD (7 - col))
        | none => c)

/-- The sprite bytes from row `row` on, one screen row each, downward (R182, R181). -/
def Canvas.drawRows (edge : Config.SpriteEdge) (x0 y0 : Nat) : Nat → List Byte → Canvas → Canvas
  | _, [], c => c
  | row, b :: bs, c =>
    Canvas.drawRows edge x0 y0 (row + 1) bs
      (match onScreen edge Config.fbHeight y0 row with
        | some py => Canvas.drawCols edge x0 py b (List.range 8) c
        | none => c)

/-- The framebuffer and the collision bit after the sprite of `n` bytes at `I` is drawn with its corner at
`(vx mod 64, vy mod 32)` (R181, R183). -/
def State.drawSprite (s : State) (vx vy : Byte) (n : Nat) : Canvas :=
  Canvas.drawRows Config.spriteEdge (vx.toNat % Config.fbWidth) (vy.toNat % Config.fbHeight) 0
    (s.mem.readBytes (s.effAddr 0) n) { fb := s.fb, collision := false }

/-- `CLS` (R180). -/
def execCls (s : State) : Result := .next (s.setFb Framebuffer.blank).advance

/-- The effect of `DRW` once its range check has passed: the sprite drawn, VF the collision bit (R181). -/
def State.draw (s : State) (x y : RegId) (n : Nat) : State :=
  let c := s.drawSprite (s.readV x) (s.readV y) n
  ((s.setFb c.fb).writeV vF (flagByte c.collision)).advance

/-- `DRW Vx, Vy, n` (R181): the whole sprite is range-checked, also rows that would be clipped; no row, no
check (D31). -/
def execDrw (x y : RegId) (n : Nat) (s : State) : Result :=
  .next (if n = 0 then s.draw x y n else s.checked .memRead n (s.draw x y n))

end Sys2Proof.Machine
end

