-- ==== Sys2Proof/Machine/Flow.lean ====
section
/-! DEFINITION. Control transfer (spec/41_flow.md R110 to R118). -/

namespace Sys2Proof.Machine

/-- `JP addr` (R110). -/
def execJp (nnn : Addr12) (s : State) : Result := .next (s.setPc (zextAddr nnn))

/-- `CALL addr` (R111): the address of the next instruction is pushed (D4). -/
def execCall (nnn : Addr12) (s : State) : Result :=
  match s.push (s.pc + 2) with
  | some t => .next (t.setPc (zextAddr nnn))
  | none => .next (s.raise (.outOfRange .stackOverflow s.pc.toNat))

/-- `RET` (R112): the popped address is the new pc as it is (D4). -/
def execRet (s : State) : Result :=
  match s.pop with
  | some (a, t) => .next (t.setPc a)
  | none => .next (s.raise (.outOfRange .stackUnderflow s.pc.toNat))

/-- `JP V0, addr` (R113): a 16-bit sum that is not reduced mod 0x1000 (D30). -/
def execJpV0 (nnn : Addr12) (s : State) : Result :=
  .next (s.setPc (zextAddr nnn + zextByte (s.readV 0)))

/-- `SE Vx, byte` (R114). -/
def execSeByte (x : RegId) (nn : Byte) (s : State) : Result :=
  .next (s.skipIf (decide (s.readV x = nn)))

/-- `SNE Vx, byte` (R115). -/
def execSneByte (x : RegId) (nn : Byte) (s : State) : Result :=
  .next (s.skipIf (decide (s.readV x ≠ nn)))

/-- `SE Vx, Vy` (R116). -/
def execSeReg (x y : RegId) (s : State) : Result :=
  .next (s.skipIf (decide (s.readV x = s.readV y)))

/-- `SNE Vx, Vy` (R117). -/
def execSneReg (x y : RegId) (s : State) : Result :=
  .next (s.skipIf (decide (s.readV x ≠ s.readV y)))

end Sys2Proof.Machine
end

