-- ==== Sys2Proof/Machine/IndexMemory.lean ====
section
/-! DEFINITION. The address register and memory (spec/43_index_memory.md R160 to R166). None of these changes
`I` but the three that set it (R166, D12). -/

namespace Sys2Proof.Machine

/-- `LD I, addr` (R160). -/
def execLdI (nnn : Addr12) (s : State) : Result := .next (s.setI (zextAddr nnn)).advance

/-- `ADD I, Vx` (R161): mod 65536, not masked to 12 bits, no flag (D11, D17). -/
def execAddI (x : RegId) (s : State) : Result :=
  .next (s.setI (s.I + zextByte (s.readV x))).advance

/-- `LD F, Vx` (R162): the whole byte, no masking (D13). -/
def execLdF (x : RegId) (s : State) : Result := .next (s.setI (glyphAddr (s.readV x))).advance

/-- `LD B, Vx` (R163). -/
def execBcd (x : RegId) (s : State) : Result :=
  .next (s.checked .memWrite 3
    (s.setMem (s.mem.writeBytes (s.effAddr 0) (bcdDigits (s.readV x)))).advance)

/-- The values of V0 to Vx, V0 first (R164). -/
def State.regsTo (s : State) (x : RegId) : List Byte := s.V.toList.take (x.val + 1)

/-- `LD [I], Vx` (R164): V0 to Vx inclusive, ascending. -/
def execDump (x : RegId) (s : State) : Result :=
  .next (s.checked .memWrite (x.val + 1)
    (s.setMem (s.mem.writeBytes (s.effAddr 0) (s.regsTo x))).advance)

/-- V0 to Vx replaced by the bytes at `I`, the registers above kept (R165). -/
def State.loadRegs (s : State) (x : RegId) : State :=
  { s with V := Vector.ofFn fun k : Fin 16 => if k ≤ x then s.mem.read (s.effAddr k.val) else s.V[k] }

/-- `LD Vx, [I]` (R165): V0 to Vx inclusive. -/
def execLoad (x : RegId) (s : State) : Result :=
  .next (s.checked .memRead (x.val + 1) (s.loadRegs x).advance)

end Sys2Proof.Machine
end

