-- ==== Sys2Proof/Machine/KeyTimer.lean ====
section
/-! DEFINITION. Keypad and timer instructions (spec/45_keypad_timers.md R190 to R195). -/

namespace Sys2Proof.Machine

/-- `SKP Vx` (R190). -/
def execSkp (x : RegId) (s : State) : Result :=
  match keyIndex (s.readV x) with
  | some k => .next (s.skipIf s.keypad[k])
  | none => .next (s.raise (.outOfRange .keypadIndex (s.readV x).toNat))

/-- `SKNP Vx` (R191). -/
def execSknp (x : RegId) (s : State) : Result :=
  match keyIndex (s.readV x) with
  | some k => .next (s.skipIf !s.keypad[k])
  | none => .next (s.raise (.outOfRange .keypadIndex (s.readV x).toNat))

/-- `LD Vx, K` (R192): the least key that is down, or the wait with pc held (D6, D7). -/
def execWaitKey (x : RegId) (s : State) : Result :=
  match s.leastKey with
  | some k => .next (s.writeV x (keyCode k)).advance
  | none => .next (s.setHalted true)

/-- `LD Vx, DT` (R193). -/
def execLdFromDT (x : RegId) (s : State) : Result := .next (s.writeV x s.DT).advance

/-- `LD DT, Vx` (R194). -/
def execLdDT (x : RegId) (s : State) : Result := .next (s.setDT (s.readV x)).advance

/-- `LD ST, Vx` (R195). -/
def execLdST (x : RegId) (s : State) : Result := .next (s.setST (s.readV x)).advance

end Sys2Proof.Machine
end

