-- ==== Sys2Proof/Machine/Sequencer.lean ====
section
/-! DEFINITION. The sequencer (spec/40_sequencer.md R91 to R98): fetch, decode, execute, tick. -/

namespace Sys2Proof.Machine

/-- The word at pc, the byte at pc the high one; `none` when pc or pc + 1 lies outside memory (R92). -/
def State.fetchWord (s : State) : Option Word :=
  if s.pc.toNat > 0xFFE then none
  else some (combine (s.mem.read (s.pc.toNat + 1)) (s.mem.read s.pc.toNat))

/-- The end of a Step that has executed: the tick and its tone, or, when the instruction raised a fault,
neither (R91, R95, R96, R213). -/
def finishStep : Result → Result × Bool
  | .next s => if s.fault = none then (.next s.tick, s.tickTone) else (.next s, false)
  | .fault r => (.fault r, false)
  | .refused r => (.refused r, false)

/-- Decode and Execute of a fetched word, which `currentOpcode` already holds (R92 to R94). -/
def runWord (w : Word) (s : State) : Result × Bool :=
  match decode w with
  | .ok i => finishStep (exec i s)
  | .error _ => (.next (s.raise (.unrecognizedInstruction w)), false)

/-- `Step` of R91: the next state and the `tone` bit. -/
def runStep (s : State) : Result × Bool :=
  if s.fault ≠ none then (.next s, false)
  else if s.halted then (.next s, false)
  else match s.fetchWord with
    | none => (.next (s.raise (.outOfRange .fetch s.pc.toNat)), false)
    | some w => runWord w (s.setOpcode w)

/-- `s` with the bytes stored where the next fetch reads (for `State.withFetchWord`). -/
def State.placeAtPc (s : State) (bytes : List Byte) : State :=
  s.setMem (s.mem.writeBytes s.pc.toNat bytes)

end Sys2Proof.Machine
end

