-- ==== Sys2Proof/Machine/Step.lean ====
section
/-! DEFINITION. One Step of the core and the placing of an instruction where it fetches. -/

namespace Sys2Proof.Machine

/-- The state after one `Step` (spec/40_sequencer.md R91). -/
def step (s : State) : Host.Outcome State Fault Refusal := (runStep s).1

/-- The `tone` output of one `Step` (R96). -/
def stepTone (s : State) : Bool := (runStep s).2

/-- `s` with the instruction whose bits are `w` stored at pc, high byte first, as LoadROM would have it
(log 8). In a running state (no fault, not halted) with pc at most 0xFFE the next step runs it; `nbits` is
16 for every row. -/
def State.withFetchWord (s : State) (nbits w : Nat) : State :=
  s.placeAtPc (wordBytes (BitVec.ofNat 16 (w % 2 ^ nbits)))

end Sys2Proof.Machine
end

