-- ==== Sys2Proof/Machine/Transactions.lean ====
section
/-! DEFINITION. The five transactions of the host (spec/40_sequencer.md R90), each atomic. -/

namespace Sys2Proof.Machine

/-- `KeyEvent(key, isKeyUp)` of R99: a slot set or cleared, and on a key-down the wait ended; a key above 15
is ignored. -/
def keyEvent (key : Nat) (isKeyUp : Bool) (s : State) : State :=
  if s.fault ≠ none then s
  else if h : key < Config.nKeys then
    if isKeyUp then s.setKey ⟨key, h⟩ false else (s.setKey ⟨key, h⟩ true).setHalted false
  else s

/-- `LoadROM(bytes)` of R100: the image copied to 0x200 up, nothing else written. -/
def loadROM (bytes : List Byte) (s : State) : State :=
  if s.fault ≠ none then s
  else if bytes.length > Config.romMax then s.raise (.outOfRange .romLoad bytes.length)
  else s.setMem (s.mem.writeBytes Config.romBase bytes)

/-- `ReadFramebuffer` of R101: 2048 bytes, byte `y*64 + x` being 0x01 if pixel `(x, y)` is on, else 0x00. -/
def readFramebuffer (s : State) : List Byte :=
  (List.range (Config.fbWidth * Config.fbHeight)).map fun p =>
    if s.fb.pixel (p % Config.fbWidth) (p / Config.fbWidth) then 1 else 0

/-- `Reset` of R240: every piece of state at its reset value. What the random source has supplied is no state
of the machine (R102), so the model's own counter of it goes on (log 1). -/
def resetMachine (s : State) : State := { State.reset with draws := s.draws }

/-- A move of the host (R90). -/
inductive Transaction where
  | reset
  | loadROM (bytes : List Byte)
  | step
  | keyEvent (key : Nat) (isKeyUp : Bool)
  | readFramebuffer
  deriving DecidableEq, Repr

/-- The result a transaction hands to the host (R90). -/
inductive Output where
  | none
  | tone (b : Bool)
  | framebuffer (bytes : List Byte)
  deriving DecidableEq, Repr

/-- One transaction: the next state and the result (R90). -/
def transact (t : Transaction) (s : State) : Result × Output :=
  match t with
  | .reset => (.next (resetMachine s), .none)
  | .loadROM bytes => (.next (loadROM bytes s), .none)
  | .step => (step s, .tone (stepTone s))
  | .keyEvent key isKeyUp => (.next (keyEvent key isKeyUp s), .none)
  | .readFramebuffer => (.next s, .framebuffer (readFramebuffer s))

end Sys2Proof.Machine
end

