-- ==== Sys2Proof/Safety.lean ====
section
/-! DEFINITION. The terms claims are stated in: running states, what a transition leaves unchanged, what a
sprite covers, when an instruction raises no fault (spec/70_reset_and_hazards.md R245), and the invariant of
spec/10_state.md R36. -/

namespace Sys2Proof.Machine

/-- The running state of the sequencer: not faulted, not halted (R91). -/
def State.running (s : State) : Prop := s.fault = none ∧ s.halted = false

/-- The pieces of state, for frames: the fields of `State` by name (R33). -/
inductive Part where
  | V | I | pc | stack | sp | DT | ST | keypad | fb | halted | currentOpcode | mem | fault | draws
  deriving DecidableEq, Repr

/-- `t` holds in one part what `s` holds; for memory, every byte reads as before. -/
def State.agreeOn (s t : State) : Part → Prop
  | .V => t.V = s.V
  | .I => t.I = s.I
  | .pc => t.pc = s.pc
  | .stack => t.stack = s.stack
  | .sp => t.sp = s.sp
  | .DT => t.DT = s.DT
  | .ST => t.ST = s.ST
  | .keypad => t.keypad = s.keypad
  | .fb => t.fb = s.fb
  | .halted => t.halted = s.halted
  | .currentOpcode => t.currentOpcode = s.currentOpcode
  | .mem => ∀ a, t.mem.read a = s.mem.read a
  | .fault => t.fault = s.fault
  | .draws => t.draws = s.draws

/-- Every part of the state but the listed ones is the same in `t` as in `s`. -/
def State.onlyChanges (s t : State) (parts : List Part) : Prop :=
  ∀ p, p ∉ parts → s.agreeOn t p

/-- Every general register but the listed ones is the same in `t` as in `s`. -/
def State.keepsRegsBut (s t : State) (regs : List RegId) : Prop :=
  ∀ r, r ∉ regs → t.V[r] = s.V[r]

/-- Every stack entry but the listed ones is the same in `t` as in `s`. -/
def State.keepsStackBut (s t : State) (entries : List Nat) : Prop :=
  ∀ k : Fin Config.stackDepth, k.val ∉ entries → t.stack[k] = s.stack[k]

/-- Every byte of memory outside the `n` bytes from `a` reads in `t` as in `s`. -/
def State.keepsMemBut (s t : State) (a n : Nat) : Prop :=
  ∀ b, ¬(a ≤ b ∧ b < a + n) → t.mem.read b = s.mem.read b

/-- The bit of the sprite of `n` rows at `I`, its corner at `(vx mod 64, vy mod 32)`, that lies on screen
position `(px, py)`; false where the sprite has no pixel (R182, R183 with `SPRITE_EDGE = clip`). -/
def State.spriteBit (s : State) (vx vy : Byte) (n px py : Nat) : Bool :=
  decide (vx.toNat % 64 ≤ px) && decide (px < vx.toNat % 64 + 8) &&
  decide (vy.toNat % 32 ≤ py) && decide (py < vy.toNat % 32 + n) &&
  (s.mem.read (s.I.toNat + (py - vy.toNat % 32))).getLsbD (7 - (px - vx.toNat % 64))

/-- Whether drawing that sprite turns a pixel of the screen from on to off (R181). -/
def State.spriteCollides (s : State) (vx vy : Byte) (n : Nat) : Prop :=
  ∃ px py, px < 64 ∧ py < 32 ∧ s.spriteBit vx vy n px py = true ∧ s.fb.pixel px py = true

end Sys2Proof.Machine

namespace Sys2Proof

open Machine

/-- The condition of R212 and R245 under which an instruction raises no fault. -/
def Instr.staysInBounds (i : Instr) (s : State) : Prop :=
  match i with
  | .call _ => s.sp.val < 16
  | .ret => 0 < s.sp.val
  | .drw _ _ n => n = 0 ∨ s.I.toNat + n - 1 ≤ 0xFFF
  | .bcd _ => s.I.toNat + 2 ≤ 0xFFF
  | .dump x | .load x => s.I.toNat + x.val ≤ 0xFFF
  | .skp x | .sknp x => s.V[x].toNat ≤ 15
  | .cls | .jp _ | .seByte _ _ | .sneByte _ _ | .seReg _ _ | .ldByte _ _ | .addByte _ _ | .ldReg _ _
  | .orReg _ _ | .andReg _ _ | .xorReg _ _ | .addReg _ _ | .subReg _ _ | .shr _ _ | .subnReg _ _
  | .shl _ _ | .sneReg _ _ | .ldI _ | .jpV0 _ | .rnd _ _ | .ldFromDT _ | .waitKey _ | .ldDT _
  | .ldST _ | .addI _ | .ldF _ => True

/-- What an instruction may write besides `pc` and, where its bounds check fails, `fault`: the "w" columns of
R35. `RND` also advances the model's own counter. -/
def Instr.mayWrite : Instr → List Part
  | .cls => [.fb]
  | .ret | .call _ => [.stack, .sp]
  | .jp _ | .jpV0 _ | .seByte _ _ | .sneByte _ _ | .seReg _ _ | .sneReg _ _ | .skp _ | .sknp _ => []
  | .ldByte _ _ | .addByte _ _ | .ldReg _ _ | .orReg _ _ | .andReg _ _ | .xorReg _ _ | .addReg _ _
  | .subReg _ _ | .shr _ _ | .subnReg _ _ | .shl _ _ | .ldFromDT _ | .load _ => [.V]
  | .rnd _ _ => [.V, .draws]
  | .ldI _ | .addI _ | .ldF _ => [.I]
  | .drw _ _ _ => [.V, .fb]
  | .waitKey _ => [.V, .halted]
  | .ldDT _ => [.DT]
  | .ldST _ => [.ST]
  | .bcd _ | .dump _ => [.mem]

/-- The general registers an instruction may write: its destination, and VF for the six of R21. -/
def Instr.destRegs : Instr → List RegId
  | .ldByte x _ | .addByte x _ | .ldReg x _ | .orReg x _ | .andReg x _ | .xorReg x _ | .rnd x _
  | .ldFromDT x | .waitKey x => [x]
  | .addReg x _ | .subReg x _ | .shr x _ | .subnReg x _ | .shl x _ => [x, vF]
  | .drw _ _ _ => [vF]
  | .load x => (List.finRange 16).filter fun r => decide (r ≤ x)
  | .cls | .ret | .jp _ | .call _ | .seByte _ _ | .sneByte _ _ | .seReg _ _ | .sneReg _ _ | .ldI _
  | .jpV0 _ | .skp _ | .sknp _ | .ldDT _ | .ldST _ | .addI _ | .ldF _ | .bcd _ | .dump _ => []

end Sys2Proof

namespace Sys2Proof.Machine

/-- What every transaction keeps (R36): memory is in its canonical form, pc is at most 0x10FE, every return
address on the stack lies in 2 to 0x1000, and a halted machine waits on an `LD Vx, K` it could fetch. -/
structure State.Inv (s : State) : Prop where
  memWf : s.mem.wf = true
  pcBound : s.pc.toNat ≤ 0x10FE
  stackBound : ∀ k : Fin Config.stackDepth, k.val < s.sp.val →
    2 ≤ s.stack[k].toNat ∧ s.stack[k].toNat ≤ 0x1000
  haltedOnWait : s.halted = true →
    s.pc.toNat ≤ 0xFFE ∧ ∃ x, decode s.currentOpcode = .ok (.waitKey x)

end Sys2Proof.Machine
end

