-- ==== Sys2Proof/Certificates/Slice0/Obligations.lean ====
section
/-! DEFINITION. The statements for the provers, from the numbered rules of spec/. A frame is said by
`State.onlyChanges`, `keepsRegsBut`, `keepsStackBut` and `keepsMemBut` of Safety.lean. Where a docstring names a
decision D<n> of spec/92_eei_decisions.md or general knowledge (spec/93_implementation_defined.md), that clause is
the spec's own choice, logged in notes/assumptions/3.md and 6.md. -/

open Sys2Proof Sys2Proof.Machine

/-! ## Control transfer (41_flow.md) -/

/-- R110: the words `1NNN` are the jump, and pc becomes `NNN`, whatever it was. -/
def Obligations.JumpSetsPc : Prop :=
  (∀ w : Word, fieldOP w = 1 → decode w = .ok (.jp (fieldNNN w))) ∧
  (∀ (nnn : Addr12) (s : State), ∃ t, exec (.jp nnn) s = .next t ∧
    t.pc.toNat = nnn.toNat ∧ s.onlyChanges t [.pc])

/-- R113 (general knowledge G2, D30): pc becomes `NNN + V0`, the exact sum, for every `NNN` and every V0. -/
def Obligations.JumpV0AddsWithoutWrap : Prop :=
  ∀ (nnn : Addr12) (s : State), ∃ t, exec (.jpV0 nnn) s = .next t ∧
    t.pc.toNat = nnn.toNat + s.V[(0 : RegId)].toNat ∧ s.onlyChanges t [.pc]

/-- R111 (D4, D5): a call below depth 16 pushes `pc + 2` and goes to `NNN`. -/
def Obligations.CallPushesReturnAddress : Prop :=
  ∀ (nnn : Addr12) (s : State) (h : s.sp.val < 16), ∃ t, exec (.call nnn) s = .next t ∧
    t.sp.val = s.sp.val + 1 ∧ t.stack[s.sp.val]'h = s.pc + 2 ∧ s.keepsStackBut t [s.sp.val] ∧
    t.pc.toNat = nnn.toNat ∧ s.onlyChanges t [.stack, .sp, .pc]

/-- R112 (D4, D5): a return with an address on the stack goes to it; the entry keeps its value. -/
def Obligations.ReturnPopsAddress : Prop :=
  ∀ (s : State) (h : 0 < s.sp.val), ∃ t, exec .ret s = .next t ∧
    t.sp.val = s.sp.val - 1 ∧ t.pc = s.stack[s.sp.val - 1]'(by omega) ∧ s.onlyChanges t [.sp, .pc]

/-- R111, R112 (D2, D3; the codes and information values of R210 are D24): the 17th nested call and a return on
an empty stack fault with the value of pc, and nothing else is written. -/
def Obligations.StackLimitsFault : Prop :=
  (∀ (nnn : Addr12) (s : State), s.sp.val = 16 → ∃ t, exec (.call nnn) s = .next t ∧
    t.fault = some (.outOfRange .stackOverflow s.pc.toNat) ∧ t.faultCode = 5 ∧ s.onlyChanges t [.fault]) ∧
  (∀ s : State, s.sp.val = 0 → ∃ t, exec .ret s = .next t ∧
    t.fault = some (.outOfRange .stackUnderflow s.pc.toNat) ∧ t.faultCode = 6 ∧ s.onlyChanges t [.fault])

/-- R112 (S8; D4, D5): a call followed at once by a return comes back to the instruction after the call, with
the stack pointer as before and only the entry the call used changed, at every depth below 16. -/
def Obligations.CallThenReturnComesBack : Prop :=
  ∀ (nnn : Addr12) (s : State), s.sp.val < 16 → ∃ t, exec (.call nnn) s = .next t ∧
    ∃ u, exec .ret t = .next u ∧ u.pc = s.pc + 2 ∧ u.sp = s.sp ∧
      s.keepsStackBut u [s.sp.val] ∧ s.onlyChanges u [.stack, .pc]

/-- R114: the words `3XNN` are this skip; pc advances by 4 when `Vx = NN`, by 2 otherwise, for all register
values and immediates. -/
def Obligations.SkipIfEqualImmediate : Prop :=
  (∀ w : Word, fieldOP w = 3 → decode w = .ok (.seByte (fieldX w) (fieldNN w))) ∧
  (∀ (x : RegId) (nn : Byte) (s : State), ∃ t, exec (.seByte x nn) s = .next t ∧
    (s.V[x] = nn → t.pc = s.pc + 4) ∧ (s.V[x] ≠ nn → t.pc = s.pc + 2) ∧ s.onlyChanges t [.pc])

/-- R115 to R117 (general knowledge G2): the other three skips on registers. -/
def Obligations.SkipOnRegisters : Prop :=
  (∀ (x : RegId) (nn : Byte) (s : State), ∃ t, exec (.sneByte x nn) s = .next t ∧
    (s.V[x] ≠ nn → t.pc = s.pc + 4) ∧ (s.V[x] = nn → t.pc = s.pc + 2) ∧ s.onlyChanges t [.pc]) ∧
  (∀ (x y : RegId) (s : State), ∃ t, exec (.seReg x y) s = .next t ∧
    (s.V[x] = s.V[y] → t.pc = s.pc + 4) ∧ (s.V[x] ≠ s.V[y] → t.pc = s.pc + 2) ∧
    s.onlyChanges t [.pc]) ∧
  (∀ (x y : RegId) (s : State), ∃ t, exec (.sneReg x y) s = .next t ∧
    (s.V[x] ≠ s.V[y] → t.pc = s.pc + 4) ∧ (s.V[x] = s.V[y] → t.pc = s.pc + 2) ∧
    s.onlyChanges t [.pc])

/-! ## Register, arithmetic and logic (42_alu.md) -/

/-- R130: the words `6XNN` are this load; `Vx` becomes `NN`; no other register changes, VF included unless it
is `Vx`. -/
def Obligations.LoadImmediateSetsRegister : Prop :=
  (∀ w : Word, fieldOP w = 6 → decode w = .ok (.ldByte (fieldX w) (fieldNN w))) ∧
  (∀ (x : RegId) (nn : Byte) (s : State), ∃ t, exec (.ldByte x nn) s = .next t ∧
    t.V[x] = nn ∧ s.keepsRegsBut t [x] ∧ t.pc = s.pc + 2 ∧ s.onlyChanges t [.V, .pc])

/-- R131, R132 (general knowledge G2, D11): the sum mod 256 without a flag, and the move. -/
def Obligations.AddImmediateAndMove : Prop :=
  (∀ (x : RegId) (nn : Byte) (s : State), ∃ t, exec (.addByte x nn) s = .next t ∧
    t.V[x].toNat = (s.V[x].toNat + nn.toNat) % 256 ∧ s.keepsRegsBut t [x] ∧ t.pc = s.pc + 2 ∧
    s.onlyChanges t [.V, .pc]) ∧
  (∀ (x y : RegId) (s : State), ∃ t, exec (.ldReg x y) s = .next t ∧
    t.V[x] = s.V[y] ∧ s.keepsRegsBut t [x] ∧ t.pc = s.pc + 2 ∧ s.onlyChanges t [.V, .pc])

/-- R133 to R135 (general knowledge G2, D11): bit by bit, and VF is not written. -/
def Obligations.LogicIsBitwise : Prop :=
  (∀ (x y : RegId) (s : State), ∃ t, exec (.orReg x y) s = .next t ∧
    (∀ k < 8, t.V[x].getLsbD k = (s.V[x].getLsbD k || s.V[y].getLsbD k)) ∧ s.keepsRegsBut t [x] ∧
    t.pc = s.pc + 2 ∧ s.onlyChanges t [.V, .pc]) ∧
  (∀ (x y : RegId) (s : State), ∃ t, exec (.andReg x y) s = .next t ∧
    (∀ k < 8, t.V[x].getLsbD k = (s.V[x].getLsbD k && s.V[y].getLsbD k)) ∧ s.keepsRegsBut t [x] ∧
    t.pc = s.pc + 2 ∧ s.onlyChanges t [.V, .pc]) ∧
  (∀ (x y : RegId) (s : State), ∃ t, exec (.xorReg x y) s = .next t ∧
    (∀ k < 8, t.V[x].getLsbD k = (s.V[x].getLsbD k ^^ s.V[y].getLsbD k)) ∧ s.keepsRegsBut t [x] ∧
    t.pc = s.pc + 2 ∧ s.onlyChanges t [.V, .pc])

/-- R136 (D10: when `X = F`, VF holds the carry and the sum is lost): the words `8XY4` are this add; VF is the
carry out, always written; `Vx` is the sum mod 256, unless it is VF itself. -/
def Obligations.AddSetsCarry : Prop :=
  (∀ w : Word, fieldOP w = 8 → fieldN w = 4 → decode w = .ok (.addReg (fieldX w) (fieldY w))) ∧
  (∀ (x y : RegId) (s : State), ∃ t, exec (.addReg x y) s = .next t ∧
    t.V[vF] = (if s.V[x].toNat + s.V[y].toNat > 255 then 1 else 0) ∧
    (x ≠ vF → t.V[x].toNat = (s.V[x].toNat + s.V[y].toNat) % 256) ∧
    s.keepsRegsBut t [x, vF] ∧ t.pc = s.pc + 2 ∧ s.onlyChanges t [.V, .pc])

/-- R137 (D10: when `X = F`, VF holds the flag): VF is 1 when there is NO borrow; `Vx` is `Vx - Vy` mod 256, unless
it is VF itself. -/
def Obligations.SubtractSetsNotBorrow : Prop :=
  ∀ (x y : RegId) (s : State), ∃ t, exec (.subReg x y) s = .next t ∧
    t.V[vF] = (if s.V[x].toNat < s.V[y].toNat then 0 else 1) ∧
    (x ≠ vF → (t.V[x].toNat : Int) = ((s.V[x].toNat : Int) - s.V[y].toNat) % 256) ∧
    s.keepsRegsBut t [x, vF] ∧ t.pc = s.pc + 2 ∧ s.onlyChanges t [.V, .pc]

/-- R139 (D10: when `X = F`, VF holds the flag): the same with the operands the other way round, `Vy - Vx`. -/
def Obligations.ReverseSubtractSetsNotBorrow : Prop :=
  ∀ (x y : RegId) (s : State), ∃ t, exec (.subnReg x y) s = .next t ∧
    t.V[vF] = (if s.V[y].toNat < s.V[x].toNat then 0 else 1) ∧
    (x ≠ vF → (t.V[x].toNat : Int) = ((s.V[y].toNat : Int) - s.V[x].toNat) % 256) ∧
    s.keepsRegsBut t [x, vF] ∧ t.pc = s.pc + 2 ∧ s.onlyChanges t [.V, .pc]

/-- R138 (D10: when `X = F`, VF holds the old bit 0 and the shifted value is lost): `Vx` halves, VF is the old
bit 0; the field `Y` takes no part. -/
def Obligations.ShiftRightReportsBit0 : Prop :=
  ∀ (x y : RegId) (s : State), ∃ t, exec (.shr x y) s = .next t ∧
    t.V[vF].toNat = s.V[x].toNat % 2 ∧ (x ≠ vF → t.V[x].toNat = s.V[x].toNat / 2) ∧
    s.keepsRegsBut t [x, vF] ∧ t.pc = s.pc + 2 ∧ s.onlyChanges t [.V, .pc]

/-- R140 (D10: when `X = F`, VF holds the old bit 7 and the shifted value is lost): `Vx` doubles mod 256, VF is the
old bit 7 as 0 or 1; the field `Y` takes no part. -/
def Obligations.ShiftLeftReportsBit7 : Prop :=
  ∀ (x y : RegId) (s : State), ∃ t, exec (.shl x y) s = .next t ∧
    t.V[vF].toNat = s.V[x].toNat / 128 ∧ (x ≠ vF → t.V[x].toNat = 2 * s.V[x].toNat % 256) ∧
    s.keepsRegsBut t [x, vF] ∧ t.pc = s.pc + 2 ∧ s.onlyChanges t [.V, .pc]

/-- R141, R102 (D20, log 1): the random byte, whatever it is, under the mask; no bit outside the mask is set. The
next draw is another one (`draws` is the model's own counter). -/
def Obligations.RandomByteUnderMask : Prop :=
  ∀ (x : RegId) (nn : Byte) (s : State), ∃ t, exec (.rnd x nn) s = .next t ∧
    (∀ k < 8, t.V[x].getLsbD k = ((Config.draw8 s.draws).getLsbD k && nn.getLsbD k)) ∧
    t.draws = s.draws + 1 ∧ s.keepsRegsBut t [x] ∧ t.pc = s.pc + 2 ∧
    s.onlyChanges t [.V, .pc, .draws]

/-- R143: the arithmetic helpers for all bytes, and `combine` loses nothing. -/
def Obligations.ArithmeticHelpersAreExact : Prop :=
  ∀ a b : Byte,
    ((checkedAdd a b).1.toNat = (a.toNat + b.toNat) % 256 ∧
      ((checkedAdd a b).2 = true ↔ a.toNat + b.toNat > 255)) ∧
    (((checkedSub a b).1.toNat : Int) = ((a.toNat : Int) - b.toNat) % 256 ∧
      ((checkedSub a b).2 = true ↔ a.toNat < b.toNat)) ∧
    ((combine a b).toNat = b.toNat * 256 + a.toNat ∧
      (∀ c d : Byte, combine a b = combine c d → a = c ∧ b = d) ∧
      (∀ w : Word, ∃ low high, combine low high = w))

/-! ## The address register and memory (43_index_memory.md, 20_memory.md) -/

/-- R160 to R162 (general knowledge G2, D11, D13, D17): the three ways `I` is set; VF is not written. -/
def Obligations.IndexRegisterIsSet : Prop :=
  (∀ (nnn : Addr12) (s : State), ∃ t, exec (.ldI nnn) s = .next t ∧
    t.I.toNat = nnn.toNat ∧ t.pc = s.pc + 2 ∧ s.onlyChanges t [.I, .pc]) ∧
  (∀ (x : RegId) (s : State), ∃ t, exec (.addI x) s = .next t ∧
    t.I.toNat = (s.I.toNat + s.V[x].toNat) % 65536 ∧ t.pc = s.pc + 2 ∧ s.onlyChanges t [.I, .pc]) ∧
  (∀ (x : RegId) (s : State), ∃ t, exec (.ldF x) s = .next t ∧
    t.I.toNat = 5 * s.V[x].toNat ∧ t.pc = s.pc + 2 ∧ s.onlyChanges t [.I, .pc])

/-- R163 (D3): the three decimal digits at I, I + 1, I + 2 and no other byte. `Memory.wf` is the invariant of
`StepKeepsInvariant`. -/
def Obligations.BcdStoresDigits : Prop :=
  ∀ (x : RegId) (s : State), s.mem.wf = true → s.I.toNat + 2 ≤ 0xFFF →
    ∃ t, exec (.bcd x) s = .next t ∧
      (t.mem.read (s.effAddr 0)).toNat = s.V[x].toNat / 100 ∧
      (t.mem.read (s.effAddr 1)).toNat = s.V[x].toNat / 10 % 10 ∧
      (t.mem.read (s.effAddr 2)).toNat = s.V[x].toNat % 10 ∧
      s.keepsMemBut t (s.effAddr 0) 3 ∧ t.pc = s.pc + 2 ∧ s.onlyChanges t [.mem, .pc]

/-- R164 (D3, D12): V0 to Vx at I up, no other byte, `I` unchanged. -/
def Obligations.DumpStoresRegisters : Prop :=
  ∀ (x : RegId) (s : State), s.mem.wf = true → s.I.toNat + x.val ≤ 0xFFF →
    ∃ t, exec (.dump x) s = .next t ∧
      (∀ k : RegId, k ≤ x → t.mem.read (s.effAddr k.val) = s.V[k]) ∧
      s.keepsMemBut t (s.effAddr 0) (x.val + 1) ∧ t.pc = s.pc + 2 ∧ s.onlyChanges t [.mem, .pc]

/-- R165 (D3, D12): V0 to Vx from I up, the registers above kept, `I` unchanged. -/
def Obligations.LoadReadsRegisters : Prop :=
  ∀ (x : RegId) (s : State), s.I.toNat + x.val ≤ 0xFFF →
    ∃ t, exec (.load x) s = .next t ∧
      (∀ k : RegId, k ≤ x → t.V[k] = s.mem.read (s.effAddr k.val)) ∧
      (∀ k : RegId, x < k → t.V[k] = s.V[k]) ∧ t.pc = s.pc + 2 ∧ s.onlyChanges t [.V, .pc]

/-- R163 to R166, R181 (D2, D3, D31; codes and information values D24): a memory instruction whose range passes
0xFFF faults with the value of `I` and moves no byte; `DRW` is checked for all its rows, and not at all when it
has none. -/
def Obligations.MemoryRangeFaults : Prop :=
  (∀ (x : RegId) (s : State), 0xFFF < s.I.toNat + 2 → ∃ t, exec (.bcd x) s = .next t ∧
    t.fault = some (.outOfRange .memWrite s.I.toNat) ∧ t.faultCode = 4 ∧ s.onlyChanges t [.fault]) ∧
  (∀ (x : RegId) (s : State), 0xFFF < s.I.toNat + x.val → ∃ t, exec (.dump x) s = .next t ∧
    t.fault = some (.outOfRange .memWrite s.I.toNat) ∧ t.faultCode = 4 ∧ s.onlyChanges t [.fault]) ∧
  (∀ (x : RegId) (s : State), 0xFFF < s.I.toNat + x.val → ∃ t, exec (.load x) s = .next t ∧
    t.fault = some (.outOfRange .memRead s.I.toNat) ∧ t.faultCode = 3 ∧ s.onlyChanges t [.fault]) ∧
  (∀ (x y : RegId) (n : Nat) (s : State), 0 < n → 0xFFF < s.I.toNat + n - 1 →
    ∃ t, exec (.drw x y n) s = .next t ∧
      t.fault = some (.outOfRange .memRead s.I.toNat) ∧ t.faultCode = 3 ∧ s.onlyChanges t [.fault])

/-- R165 (S10; D3, D12): a register load from where a dump stored gives back V0 to Vx as they were at the dump,
whatever happened between, if `I` and the stored bytes are the same. -/
def Obligations.DumpThenLoadRestores : Prop :=
  ∀ (x : RegId) (s : State), s.mem.wf = true → s.I.toNat + x.val ≤ 0xFFF →
    ∃ t, exec (.dump x) s = .next t ∧
      ∀ u : State, u.I = t.I →
        (∀ k, k ≤ x.val → u.mem.read (s.I.toNat + k) = t.mem.read (s.I.toNat + k)) →
        ∃ v, exec (.load x) u = .next v ∧ ∀ k : RegId, k ≤ x → v.V[k] = s.V[k]

/-- R61, R54 (derived): two bytes stored by a register dump are the word the very next fetch there reads, the
lower register the high byte. -/
def Obligations.StoredBytesAreFetched : Prop :=
  ∀ (x : RegId) (s : State) (k : Nat) (h : k < x.val), s.mem.wf = true → s.I.toNat + x.val ≤ 0xFFF →
    ∃ t, exec (.dump x) s = .next t ∧
      ∀ u : State, u.mem = t.mem → u.pc.toNat = s.I.toNat + k →
        u.fetchWord = some (combine (s.V[k + 1]'(by omega)) (s.V[k]'(by omega)))

/-! ## Display (44_display.md) -/

/-- R180 (general knowledge G2): every pixel off; VF is not written. -/
def Obligations.ClearScreenBlanks : Prop :=
  ∀ s : State, ∃ t, exec .cls s = .next t ∧
    (∀ px py, px < 64 → py < 32 → t.fb.pixel px py = false) ∧ t.pc = s.pc + 2 ∧
    s.onlyChanges t [.fb, .pc]

/-- R181 to R183 (D3, D8, D10, D31): every screen pixel becomes its exclusive OR with the clipped sprite's bit
there, and VF says whether one went from on to off; the corner is taken from the registers as they were. -/
def Obligations.DrawXorsSprite : Prop :=
  ∀ (x y : RegId) (n : Nat) (s : State), (n = 0 ∨ s.I.toNat + n - 1 ≤ 0xFFF) →
    ∃ t, exec (.drw x y n) s = .next t ∧
      (∀ px py, px < 64 → py < 32 →
        t.fb.pixel px py = (s.fb.pixel px py ^^ s.spriteBit s.V[x] s.V[y] n px py)) ∧
      (s.spriteCollides s.V[x] s.V[y] n → t.V[vF] = 1) ∧
      (¬s.spriteCollides s.V[x] s.V[y] n → t.V[vF] = 0) ∧
      s.keepsRegsBut t [vF] ∧ t.pc = s.pc + 2 ∧ s.onlyChanges t [.V, .fb, .pc]

/-- R181 (S9, C2; D8): drawing the same sprite twice restores the screen, and after a first draw without
collision the second reports one exactly when the sprite has a 1 pixel inside the screen. -/
def Obligations.DrawTwiceRestoresScreen : Prop :=
  ∀ (x y : RegId) (n : Nat) (s : State), x ≠ vF → y ≠ vF → (n = 0 ∨ s.I.toNat + n - 1 ≤ 0xFFF) →
    ∃ t, exec (.drw x y n) s = .next t ∧ ∃ u, exec (.drw x y n) t = .next u ∧
      u.fb = s.fb ∧
      (t.V[vF] = 0 → (u.V[vF] = 1 ↔
        ∃ px py, px < 64 ∧ py < 32 ∧ s.spriteBit s.V[x] s.V[y] n px py = true))

/-! ## Keypad and timers (45_keypad_timers.md) -/

/-- R190, R191 (general knowledge G2, D3): the two keypad skips on a key code up to 15. -/
def Obligations.SkipOnKey : Prop :=
  (∀ (x : RegId) (s : State) (h : s.V[x].toNat < 16), ∃ t, exec (.skp x) s = .next t ∧
    (s.keypad[s.V[x].toNat]'h = true → t.pc = s.pc + 4) ∧
    (s.keypad[s.V[x].toNat]'h = false → t.pc = s.pc + 2) ∧ s.onlyChanges t [.pc]) ∧
  (∀ (x : RegId) (s : State) (h : s.V[x].toNat < 16), ∃ t, exec (.sknp x) s = .next t ∧
    (s.keypad[s.V[x].toNat]'h = false → t.pc = s.pc + 4) ∧
    (s.keypad[s.V[x].toNat]'h = true → t.pc = s.pc + 2) ∧ s.onlyChanges t [.pc])

/-- R190, R191 (D2, D3; code and information value D24): a key code above 15 is not masked; it faults with that
value and nothing else is written. -/
def Obligations.KeyCodeAbove15Faults : Prop :=
  ∀ (x : RegId) (s : State), 15 < s.V[x].toNat → ∀ i ∈ [Instr.skp x, Instr.sknp x],
    ∃ t, exec i s = .next t ∧
      t.fault = some (.outOfRange .keypadIndex s.V[x].toNat) ∧ t.faultCode = 7 ∧ s.onlyChanges t [.fault]

/-- R192 (D6, D7): with a key down the wait completes at once with the least key that is down. -/
def Obligations.KeyWaitTakesLeastKey : Prop :=
  ∀ (x : RegId) (s : State) (k : Fin 16), s.keypad[k] = true →
    (∀ j : Fin 16, j < k → s.keypad[j] = false) →
    ∃ t, exec (.waitKey x) s = .next t ∧ t.V[x].toNat = k.val ∧ s.keepsRegsBut t [x] ∧
      t.pc = s.pc + 2 ∧ s.onlyChanges t [.V, .pc]

/-- R192 (D6): with no key down the machine halts, pc stays on the instruction. -/
def Obligations.KeyWaitHalts : Prop :=
  ∀ (x : RegId) (s : State), (∀ k : Fin 16, s.keypad[k] = false) →
    ∃ t, exec (.waitKey x) s = .next t ∧ t.halted = true ∧ s.onlyChanges t [.halted]

/-- R193 to R195 (general knowledge G2): the three timer moves. -/
def Obligations.TimerMoves : Prop :=
  (∀ (x : RegId) (s : State), ∃ t, exec (.ldFromDT x) s = .next t ∧
    t.V[x] = s.DT ∧ s.keepsRegsBut t [x] ∧ t.pc = s.pc + 2 ∧ s.onlyChanges t [.V, .pc]) ∧
  (∀ (x : RegId) (s : State), ∃ t, exec (.ldDT x) s = .next t ∧
    t.DT = s.V[x] ∧ t.pc = s.pc + 2 ∧ s.onlyChanges t [.DT, .pc]) ∧
  (∀ (x : RegId) (s : State), ∃ t, exec (.ldST x) s = .next t ∧
    t.ST = s.V[x] ∧ t.pc = s.pc + 2 ∧ s.onlyChanges t [.ST, .pc])

/-! ## The sequencer (40_sequencer.md) -/

/-- R91 to R94, R54: when the two bytes at pc, the first the high byte, decode to an instruction, a Step of a
running machine is that instruction on the state whose `currentOpcode` holds the word, and then the tick and its
tone, unless the instruction faulted. -/
def Obligations.StepRunsDecodedInstruction : Prop :=
  ∀ (s : State) (i : Instr) (w : Word), s.running → s.pc.toNat ≤ 0xFFE → i.wf = true →
    decodeBytes [s.mem.read s.pc.toNat, s.mem.read (s.pc.toNat + 1)] = .ok (i, []) →
    w = combine (s.mem.read (s.pc.toNat + 1)) (s.mem.read s.pc.toNat) →
    ∃ t, exec i { s with currentOpcode := w } = .next t ∧
      step s = .next (if t.fault = none then t.tick else t) ∧
      stepTone s = (decide (t.fault = none) && decide (t.ST = 1))

/-- R95 (the halting Step ticks by D14; the tone bit is D28; a raise as a next state is D2, log 2): one tick after
the instruction, on the values it left, with the tone when `ST` is then 1; no tick in a Step that returns early or
raises. -/
def Obligations.StepTicksOnce : Prop :=
  (∀ (s t : State) (w : Word) (i : Instr), s.running → s.fetchWord = some w → decode w = .ok i →
    exec i { s with currentOpcode := w } = .next t → t.fault = none →
    ∃ u, step s = .next u ∧ u.DT.toNat = t.DT.toNat - 1 ∧ u.ST.toNat = t.ST.toNat - 1 ∧
      t.onlyChanges u [.DT, .ST] ∧ (stepTone s = true ↔ t.ST.toNat = 1)) ∧
  (∀ s : State, ∃ t, step s = .next t ∧
    (s.fault ≠ none ∨ s.halted = true ∨ t.fault ≠ none →
      t.DT = s.DT ∧ t.ST = s.ST ∧ stepTone s = false))

/-- R98, R214 (D2, D27): once a fault is recorded, Step, KeyEvent and LoadROM change nothing, so the first cause
stays; ReadFramebuffer still answers and Reset clears it. -/
def Obligations.FaultedStateIsFrozen : Prop :=
  ∀ s : State, s.fault ≠ none →
    step s = .next s ∧ stepTone s = false ∧
    (∀ key isKeyUp, keyEvent key isKeyUp s = s) ∧ (∀ bytes, loadROM bytes s = s) ∧
    transact .readFramebuffer s = (.next s, .framebuffer (readFramebuffer s)) ∧
    (resetMachine s).fault = none

/-- R92 (D3, D18; code and information value D24): a fetch whose word does not lie inside memory faults with the
value of pc; `currentOpcode` keeps its old value and nothing ticks. -/
def Obligations.FetchBeyondMemoryFaults : Prop :=
  ∀ s : State, s.running → 0xFFE < s.pc.toNat →
    ∃ t, step s = .next t ∧ t.fault = some (.outOfRange .fetch s.pc.toNat) ∧ t.faultCode = 2 ∧
      s.onlyChanges t [.fault] ∧ stepTone s = false

/-- R211 (the fault as a next state with pc kept is D2, log 2; which words match no row is D9 and general
knowledge G1; the tone bit is D28, the code D24): a fetched word that matches no row of the opcode map raises
`UnrecognizedInstruction` after `currentOpcode` is written and before anything else is; no instruction is
skipped. -/
def Obligations.UnrecognizedWordFaults : Prop :=
  ∀ (s : State) (w : Word), s.running → s.fetchWord = some w →
    (∀ r ∈ opcodeMap, w &&& r.2 ≠ r.1) →
    ∃ t, step s = .next t ∧ t.fault = some (.unrecognizedInstruction w) ∧ t.faultCode = 1 ∧ t.currentOpcode = w ∧
      s.onlyChanges t [.fault, .currentOpcode] ∧ stepTone s = false

/-- R91, R94 (derived; that a fault is a next state and never `Host.Outcome.fault` is D2, log 2): every Step and
every other transaction answers a next state: the machine never stops. -/
def Obligations.EveryTransactionAnswers : Prop :=
  ∀ (tr : Transaction) (s : State), ∃ t, (transact tr s).1 = .next t

/-- R245 (abort is D3; the fault as a next state is D2, log 2; `DRW` without rows is in bounds by D31; which
words are instructions is D9 and general knowledge G1): a Step of a running machine ends without a fault exactly
when pc lies in memory, the word there is an instruction, and the instruction stays in its bounds. -/
def Obligations.StepFaultsExactlyOutOfBounds : Prop :=
  ∀ s : State, s.running → ∃ t, step s = .next t ∧
    (t.fault = none ↔ s.pc.toNat ≤ 0xFFE ∧
      ∃ i, decode (combine (s.mem.read (s.pc.toNat + 1)) (s.mem.read s.pc.toNat)) = .ok i ∧
        i.staysInBounds s)

/-- R213, R94 (D2): a faulting instruction writes nothing but `fault`. -/
def Obligations.FaultingInstructionWritesNothing : Prop :=
  ∀ (i : Instr) (s : State), s.fault = none → ∃ t, exec i s = .next t ∧
    (t.fault ≠ none → s.onlyChanges t [.fault])

/-- R35 (derived): what each instruction may write, the access matrix, and which registers. -/
def Obligations.AccessMatrix : Prop :=
  ∀ (i : Instr) (s : State), ∃ t, exec i s = .next t ∧
    s.onlyChanges t (.pc :: .fault :: i.mayWrite) ∧ s.keepsRegsBut t i.destRegs

/-- R21 (the order of writes when X = F is D10; that OR, AND, XOR, `ADD Vx, byte` and `ADD I, Vx` write no flag is
D11): VF after the five flag-writing instructions of 42_alu.md, for every destination, VF itself included; an
instruction none of whose destinations is VF leaves it. The sixth flag writer, `DRW`, is `DrawXorsSprite`. -/
def Obligations.FlagConventionOnVF : Prop :=
  (∀ (x y : RegId) (s : State),
    (∃ t, exec (.addReg x y) s = .next t ∧
      t.V[vF] = if 255 < s.V[x].toNat + s.V[y].toNat then 1 else 0) ∧
    (∃ t, exec (.subReg x y) s = .next t ∧ t.V[vF] = if s.V[y].toNat ≤ s.V[x].toNat then 1 else 0) ∧
    (∃ t, exec (.subnReg x y) s = .next t ∧ t.V[vF] = if s.V[x].toNat ≤ s.V[y].toNat then 1 else 0) ∧
    (∃ t, exec (.shr x y) s = .next t ∧ t.V[vF].toNat = s.V[x].toNat % 2) ∧
    (∃ t, exec (.shl x y) s = .next t ∧ t.V[vF].toNat = s.V[x].toNat / 128)) ∧
  (∀ (i : Instr) (s : State), vF ∉ i.destRegs → ∃ t, exec i s = .next t ∧ t.V[vF] = s.V[vF])

/-- R102 (D20): an instruction other than `RND` ignores the random input: its result does not depend on which
byte the source supplies next. -/
def Obligations.OnlyRandomReadsTheDraw : Prop :=
  ∀ (i : Instr) (s : State) (n : Nat), (∀ x nn, i ≠ .rnd x nn) →
    ∃ t, exec i s = .next t ∧ exec i { s with draws := n } = .next { t with draws := n }

/-- R244 (derived; the tone bit is D28): after the Step that executes `LD DT, Vx` the timer holds one less than
Vx, or 0; the same of `LD ST, Vx`, with the tone in that very Step when Vx is 1. -/
def Obligations.TimerTicksInItsOwnStep : Prop :=
  (∀ (s : State) (w : Word) (x : RegId), s.running → s.fetchWord = some w → decode w = .ok (.ldDT x) →
    ∃ t, step s = .next t ∧ t.DT.toNat = s.V[x].toNat - 1) ∧
  (∀ (s : State) (w : Word) (x : RegId), s.running → s.fetchWord = some w → decode w = .ok (.ldST x) →
    ∃ t, step s = .next t ∧ t.ST.toNat = s.V[x].toNat - 1 ∧ (stepTone s = true ↔ s.V[x].toNat = 1))

/-- R103 (D19): a jump to its own address changes nothing but the timers, which count down, and
`currentOpcode`. -/
def Obligations.JumpToSelfIdles : Prop :=
  ∀ (s : State) (w : Word) (nnn : Addr12), s.running → s.fetchWord = some w → decode w = .ok (.jp nnn) →
    nnn.toNat = s.pc.toNat →
    ∃ t, step s = .next t ∧ t.DT.toNat = s.DT.toNat - 1 ∧ t.ST.toNat = s.ST.toNat - 1 ∧
      s.onlyChanges t [.currentOpcode, .DT, .ST]

/-- R97, R224: the halted state is entered by a Step that executes `LD Vx, K` with no key down, and in no other
way; it is left only by a key-down KeyEvent or by Reset; in it a Step changes nothing and gives no tone, and a
key-up still updates its keypad slot. -/
def Obligations.HaltedStateIsTheKeyWait : Prop :=
  (∀ (s : State) (w : Word) (x : RegId), s.running → s.fetchWord = some w → decode w = .ok (.waitKey x) →
    (∀ k : Fin 16, s.keypad[k] = false) →
    ∃ t, step s = .next t ∧ t.halted = true ∧ t.pc = s.pc) ∧
  (∀ (tr : Transaction) (s t : State), (transact tr s).1 = .next t → s.halted = false → t.halted = true →
    tr = .step ∧ ∃ w x, s.fetchWord = some w ∧ decode w = .ok (.waitKey x) ∧
      ∀ k : Fin 16, s.keypad[k] = false) ∧
  (∀ (tr : Transaction) (s t : State), (transact tr s).1 = .next t → s.halted = true → t.halted = false →
    tr = .reset ∨ ∃ key, key < 16 ∧ tr = .keyEvent key false) ∧
  (∀ s : State, s.halted = true → step s = .next s ∧ stepTone s = false) ∧
  (∀ (s : State) (k : Fin 16), s.fault = none → s.halted = true →
    (keyEvent k.val true s).keypad[k] = false ∧ (keyEvent k.val true s).halted = true)

/-- R192, R99 (D6): a machine halted on `LD Vx, K` with all keys up, given one key-down event, completes the
instruction in the next Step, which fetches it again: `Vx` is that key, pc moves on, and the machine runs. -/
def Obligations.KeyWaitResumes : Prop :=
  ∀ (s : State) (w : Word) (x : RegId) (k : Fin 16), s.fault = none → s.halted = true →
    (∀ j : Fin 16, s.keypad[j] = false) → s.fetchWord = some w → decode w = .ok (.waitKey x) →
    ∃ t, step (keyEvent k.val false s) = .next t ∧ t.V[x].toNat = k.val ∧ s.keepsRegsBut t [x] ∧
      t.pc = s.pc + 2 ∧ t.halted = false ∧ t.keypad[k] = true ∧
      s.onlyChanges t [.V, .pc, .halted, .keypad, .currentOpcode, .DT, .ST]

/-! ## The host's transactions and reset -/

/-- R99 (D6, D22): a KeyEvent of key 0 to 15 sets or clears that slot and no other, and a key-down clears
`halted`; any other key is ignored; nothing else is written. -/
def Obligations.KeyEventSetsSlot : Prop :=
  (∀ (s : State) (k : Fin 16) (isKeyUp : Bool), s.fault = none →
    (keyEvent k.val isKeyUp s).keypad[k] = !isKeyUp ∧
    (∀ j : Fin 16, j ≠ k → (keyEvent k.val isKeyUp s).keypad[j] = s.keypad[j]) ∧
    (keyEvent k.val isKeyUp s).halted = (s.halted && isKeyUp) ∧
    s.onlyChanges (keyEvent k.val isKeyUp s) [.keypad, .halted]) ∧
  (∀ (s : State) (key : Nat) (isKeyUp : Bool), 15 < key → keyEvent key isKeyUp s = s)

/-- R100 (D3, D23; code and information value D24): an image of at most 3584 bytes stands in memory from 0x200
up and nothing else changes; a longer one faults with its length and no byte is copied. -/
def Obligations.LoadRomCopiesImage : Prop :=
  (∀ (s : State) (bytes : List Byte), s.fault = none → s.mem.wf = true → bytes.length ≤ 3584 →
    (∀ (k : Nat) (h : k < bytes.length), (loadROM bytes s).mem.read (0x200 + k) = bytes[k]) ∧
    s.keepsMemBut (loadROM bytes s) 0x200 bytes.length ∧ s.onlyChanges (loadROM bytes s) [.mem]) ∧
  (∀ (s : State) (bytes : List Byte), s.fault = none → 3584 < bytes.length →
    (loadROM bytes s).fault = some (.outOfRange .romLoad bytes.length) ∧ (loadROM bytes s).faultCode = 8 ∧
    s.onlyChanges (loadROM bytes s) [.fault])

/-- R101 (D16): 2048 bytes, byte `y*64 + x` being 0x01 when pixel `(x, y)` is on and 0x00 when it is off, in any
state, with no state change. -/
def Obligations.ReadFramebufferExports : Prop :=
  ∀ s : State, (transact .readFramebuffer s).1 = .next s ∧ (readFramebuffer s).length = 2048 ∧
    ∀ px py, px < 64 → py < 32 →
      (readFramebuffer s)[py * 64 + px]? = some (if s.fb.pixel px py then 1 else 0)

/-- R240, R34 (D1, D15; the font bytes are the parameter `FONT`, D29; that `NONE` is code 0 is D24): from any
state Reset leaves every piece of the spec's state at its reset value. -/
def Obligations.ResetLeavesResetValues : Prop :=
  ∀ s : State, ∃ t, (transact .reset s).1 = .next t ∧
    (∀ r : RegId, t.V[r] = 0) ∧ t.I = 0 ∧ t.pc = 0x200 ∧ t.sp.val = 0 ∧
    (∀ k : Fin 16, t.stack[k] = 0) ∧ t.DT = 0 ∧ t.ST = 0 ∧ (∀ k : Fin 16, t.keypad[k] = false) ∧
    (∀ px py, t.fb.pixel px py = false) ∧ t.halted = false ∧ t.currentOpcode = 0 ∧ t.fault = none ∧ t.faultCode = 0 ∧
    Config.font.length = 80 ∧ (∀ a, a < 80 → Config.font[a]? = some (t.mem.read a)) ∧
    (∀ a, 80 ≤ a → t.mem.read a = 0)

/-- R242, with R240 (Reset as a transaction from any state is D1), R100 (an image longer than 3584 bytes is not
copied: D3, D23) and R54: after Reset, pc is 0x200 and the first word fetched is the one at 0x200, 0x201; the
same after the load of an image that fits, of any length: the word of its first two bytes, zero where it has
none. -/
def Obligations.EntryPointIsFixed : Prop :=
  ∀ s : State,
    ((resetMachine s).pc = 0x200 ∧ (resetMachine s).fetchWord =
      some (combine ((resetMachine s).mem.read 0x201) ((resetMachine s).mem.read 0x200))) ∧
    (∀ bytes : List Byte, bytes.length ≤ 3584 →
      (loadROM bytes (resetMachine s)).pc = 0x200 ∧
      (loadROM bytes (resetMachine s)).fetchWord = some (combine (bytes.getD 1 0) (bytes.getD 0 0)))

/-! ## Decoding (30_encoding.md) -/

/-- R74, R75, R76 (D9; opcode numbers are general knowledge G1): a word decodes exactly when it matches a row of
the opcode map, to a well-formed instruction of that very row. -/
def Obligations.DecodeFollowsOpcodeMap : Prop :=
  (∀ w : Word, (∃ i, decode w = .ok i) ↔ ∃ r ∈ opcodeMap, w &&& r.2 = r.1) ∧
  (∀ (w : Word) (i : Instr), decode w = .ok i →
    i.wf = true ∧ i.row ∈ opcodeMap ∧ w &&& i.row.2 = i.row.1)

/-- R81 with R71 to R75 (D9, G1): decoding the word of any well-formed instruction gives it back, with every
operand at every value. -/
def Obligations.DecodeOfEncode : Prop :=
  ∀ i : Instr, i.wf = true → decode (encode i) = .ok i

/-- R81 with R71 to R75 (D9, G1): a word that decodes is the encoding of what it decodes to, so no two words
stand for one instruction. -/
def Obligations.EncodeOfDecode : Prop :=
  ∀ (w : Word) (i : Instr), decode w = .ok i → encode i = w

/-- R75, R81, R76 (G1): sample words of every family, written out from the encoding table. -/
def Obligations.SampleWordsDecode : Prop :=
  decode 0x6005 = .ok (.ldByte 0 5) ∧ decode 0x6103 = .ok (.ldByte 1 3) ∧
  decode 0x8014 = .ok (.addReg 0 1) ∧ decode 0x1ABC = .ok (.jp 0xABC) ∧
  decode 0xA2F0 = .ok (.ldI 0x2F0) ∧ decode 0xD125 = .ok (.drw 1 2 5) ∧
  decode 0xE29E = .ok (.skp 2) ∧ decode 0xF30A = .ok (.waitKey 3) ∧
  decode 0xFFFF = .error (.unrecognized 0xFFFF)

/-! ## Invariants -/

/-- R36 (derived): every Step from a state that meets the invariant, reachable or not, ends in one. -/
def Obligations.StepKeepsInvariant : Prop :=
  ∀ s t : State, s.Inv → step s = .next t → t.Inv

/-- R36, R34 (derived): the state after reset meets the invariant. -/
def Obligations.ResetMeetsInvariant : Prop := State.reset.Inv

/-- R36 (derived): so does the state after every transaction of the host, a LoadROM of any image and any
KeyEvent among them. -/
def Obligations.TransactionsKeepInvariant : Prop :=
  ∀ (tr : Transaction) (s t : State), s.Inv → (transact tr s).1 = .next t → t.Inv
end

