-- ==== Sys2Proof/Laws/Decode.lean ====
section
/-! SUPPORT. The fields of an encoded word, and the bits of fetched words. -/

namespace Sys2Proof

/-- The four nibbles of a word determine it. -/
theorem word_ext_nibbles {v w : Word} (h3 : fieldOP v = fieldOP w) (h2 : fieldX v = fieldX w)
    (h1 : fieldY v = fieldY w) (h0 : fieldN v = fieldN w) : v = w := by
  have e2 : v.extractLsb' 8 4 = w.extractLsb' 8 4 := BitVec.eq_of_toFin_eq h2
  have e1 : v.extractLsb' 4 4 = w.extractLsb' 4 4 := BitVec.eq_of_toFin_eq h1
  have a0 := congrArg BitVec.toNat h0
  have a1 := congrArg BitVec.toNat e1
  have a2 := congrArg BitVec.toNat e2
  have a3 := congrArg BitVec.toNat h3
  simp only [fieldOP, fieldN, BitVec.extractLsb'_toNat, Nat.shiftRight_eq_div_pow] at a0 a1 a2 a3
  apply BitVec.eq_of_toNat_eq
  have := v.isLt
  have := w.isLt
  omega

/-- The word of two bytes has them as its high and low byte (R143: combining loses nothing). -/
theorem combine_toNat (low high : Byte) : (combine low high).toNat = high.toNat * 256 + low.toNat := by
  have := low.isLt
  have := high.isLt
  simp only [combine, BitVec.toNat_ofNat]
  omega

/-- The two bytes of a word combine to it again. -/
theorem combine_wordBytes (w : Word) : combine (w.extractLsb' 0 8) (w.extractLsb' 8 8) = w := by
  apply BitVec.eq_of_toNat_eq
  rw [combine_toNat]
  simp only [BitVec.extractLsb'_toNat, Nat.shiftRight_eq_div_pow]
  have := w.isLt
  omega

/-! ## Where the operand fields of an encoded word lie -/

theorem atX_bits (x : RegId) :
    (atX x).extractLsb' 12 4 = 0 ∧ (atX x).extractLsb' 8 4 = BitVec.ofFin x ∧
    (atX x).extractLsb' 4 4 = 0 ∧ (atX x).extractLsb' 0 4 = 0 ∧ (atX x).extractLsb' 0 8 = 0 := by
  revert x; decide

theorem atY_bits (y : RegId) :
    (atY y).extractLsb' 12 4 = 0 ∧ (atY y).extractLsb' 8 4 = 0 ∧
    (atY y).extractLsb' 4 4 = BitVec.ofFin y ∧ (atY y).extractLsb' 0 4 = 0 := by
  revert y; decide

theorem nn_bits (nn : Byte) :
    (nn.setWidth 16).extractLsb' 12 4 = 0 ∧ (nn.setWidth 16).extractLsb' 8 4 = 0 ∧
    (nn.setWidth 16).extractLsb' 0 8 = nn := by
  refine ⟨?_, ?_, ?_⟩ <;> apply BitVec.eq_of_toNat_eq <;>
    simp only [BitVec.extractLsb'_toNat, BitVec.toNat_setWidth, Nat.shiftRight_eq_div_pow,
      BitVec.toNat_ofNat, BitVec.ofNat_eq_ofNat] <;> have := nn.isLt <;> omega

theorem nnn_bits (nnn : Addr12) :
    (nnn.setWidth 16).extractLsb' 12 4 = 0 ∧ (nnn.setWidth 16).extractLsb' 0 12 = nnn := by
  refine ⟨?_, ?_⟩ <;> apply BitVec.eq_of_toNat_eq <;>
    simp only [BitVec.extractLsb'_toNat, BitVec.toNat_setWidth, Nat.shiftRight_eq_div_pow,
      BitVec.toNat_ofNat, BitVec.ofNat_eq_ofNat] <;> have := nnn.isLt <;> omega

theorem n_bits (n : BitVec 4) :
    (n.setWidth 16).extractLsb' 12 4 = 0 ∧ (n.setWidth 16).extractLsb' 8 4 = 0 ∧
    (n.setWidth 16).extractLsb' 4 4 = 0 ∧ (n.setWidth 16).extractLsb' 0 4 = n := by
  refine ⟨?_, ?_, ?_, ?_⟩ <;> apply BitVec.eq_of_toNat_eq <;>
    simp only [BitVec.extractLsb'_toNat, BitVec.toNat_setWidth, Nat.shiftRight_eq_div_pow,
      BitVec.toNat_ofNat, BitVec.ofNat_eq_ofNat] <;> have := n.isLt <;> omega

variable {m : Word}

/-- Format A: the opcode of `match`, and the address. -/
theorem fields_encA (nnn : Addr12) (hm : m.extractLsb' 0 12 = 0) :
    fieldOP (encA m nnn) = fieldOP m ∧ fieldNNN (encA m nnn) = nnn := by
  simp [fieldOP, fieldNNN, encA, BitVec.extractLsb'_or, nnn_bits, hm]

/-- Format RI: the opcode of `match`, the register and the immediate. -/
theorem fields_encRI (x : RegId) (nn : Byte) (hx : m.extractLsb' 8 4 = 0) (hn : m.extractLsb' 0 8 = 0) :
    fieldOP (encRI m x nn) = fieldOP m ∧ fieldX (encRI m x nn) = x ∧ fieldNN (encRI m x nn) = nn := by
  simp [fieldOP, fieldX, fieldNN, encRI, BitVec.extractLsb'_or, nn_bits, atX_bits, hx, hn]

/-- Format RR: opcode and sub-opcode of `match`, and the two registers. -/
theorem fields_encRR (x y : RegId) (hx : m.extractLsb' 8 4 = 0) (hy : m.extractLsb' 4 4 = 0) :
    fieldOP (encRR m x y) = fieldOP m ∧ fieldX (encRR m x y) = x ∧ fieldY (encRR m x y) = y ∧
      fieldN (encRR m x y) = fieldN m := by
  simp [fieldOP, fieldX, fieldY, fieldN, encRR, BitVec.extractLsb'_or, atX_bits, atY_bits, hx, hy]

/-- Format RRN: the opcode of `match`, the two registers and the row count. -/
theorem fields_encRRN (x y : RegId) (n : Nat) (hx : m.extractLsb' 8 4 = 0) (hy : m.extractLsb' 4 4 = 0)
    (hn : m.extractLsb' 0 4 = 0) :
    fieldOP (encRRN m x y n) = fieldOP m ∧ fieldX (encRRN m x y n) = x ∧
      fieldY (encRRN m x y n) = y ∧ fieldN (encRRN m x y n) = BitVec.ofNat 4 n := by
  simp [fieldOP, fieldX, fieldY, fieldN, encRRN, BitVec.extractLsb'_or, atX_bits, atY_bits, n_bits,
    hx, hy, hn]

/-- Format R: opcode and sub-opcode byte of `match`, and the register. -/
theorem fields_encR (x : RegId) (hx : m.extractLsb' 8 4 = 0) :
    fieldOP (encR m x) = fieldOP m ∧ fieldX (encR m x) = x ∧ fieldNN (encR m x) = fieldNN m := by
  simp [fieldOP, fieldX, fieldNN, encR, BitVec.extractLsb'_or, atX_bits, hx]

/-! ## A mask test is a test of the nibbles it covers (R72) -/

theorem nibble_and_ones (x : BitVec 4) : x &&& 15#4 = x := by revert x; decide

/-- Words are equal when their nibbles are (R5). -/
theorem word_eq_iff (v w : Word) : v = w ↔
    v.extractLsb' 12 4 = w.extractLsb' 12 4 ∧ v.extractLsb' 8 4 = w.extractLsb' 8 4 ∧
    v.extractLsb' 4 4 = w.extractLsb' 4 4 ∧ v.extractLsb' 0 4 = w.extractLsb' 0 4 := by
  constructor
  · rintro rfl; exact ⟨rfl, rfl, rfl, rfl⟩
  · rintro ⟨h3, h2, h1, h0⟩
    exact word_ext_nibbles h3 (congrArg BitVec.toFin h2) (congrArg BitVec.toFin h1) h0

theorem and_F000 (w v : Word) (h2 : v.extractLsb' 8 4 = 0#4) (h1 : v.extractLsb' 4 4 = 0#4)
    (h0 : v.extractLsb' 0 4 = 0#4) : w &&& 0xF000 = v ↔ fieldOP w = fieldOP v := by
  rw [word_eq_iff, h2, h1, h0]
  simp [fieldOP, BitVec.extractLsb'_and, nibble_and_ones]

theorem and_F00F (w v : Word) (h2 : v.extractLsb' 8 4 = 0#4) (h1 : v.extractLsb' 4 4 = 0#4) :
    w &&& 0xF00F = v ↔ fieldOP w = fieldOP v ∧ fieldN w = fieldN v := by
  rw [word_eq_iff, h2, h1]
  simp [fieldOP, fieldN, BitVec.extractLsb'_and, nibble_and_ones]

/-- The low byte is nibbles 3 and 4 (R71). -/
theorem fieldNN_eq_iff (w v : Word) : fieldNN w = fieldNN v ↔ fieldY w = fieldY v ∧ fieldN w = fieldN v := by
  constructor
  · intro h
    have a := congrArg BitVec.toNat h
    simp only [fieldNN, BitVec.extractLsb'_toNat, Nat.shiftRight_eq_div_pow] at a
    constructor
    · apply Fin.ext
      simp only [fieldY, BitVec.val_toFin, BitVec.extractLsb'_toNat, Nat.shiftRight_eq_div_pow]
      omega
    · apply BitVec.eq_of_toNat_eq
      simp only [fieldN, BitVec.extractLsb'_toNat, Nat.shiftRight_eq_div_pow]
      omega
  · rintro ⟨h1, h0⟩
    have a1 := congrArg Fin.val h1
    have a0 := congrArg BitVec.toNat h0
    simp only [fieldY, fieldN, BitVec.val_toFin, BitVec.extractLsb'_toNat,
      Nat.shiftRight_eq_div_pow] at a0 a1
    apply BitVec.eq_of_toNat_eq
    simp only [fieldNN, BitVec.extractLsb'_toNat, Nat.shiftRight_eq_div_pow]
    omega

/-- Equal `Y` fields are equal nibbles. -/
theorem fieldY_eq_iff (w v : Word) : fieldY w = fieldY v ↔ w.extractLsb' 4 4 = v.extractLsb' 4 4 :=
  ⟨BitVec.eq_of_toFin_eq, congrArg BitVec.toFin⟩

theorem and_F0FF (w v : Word) (h2 : v.extractLsb' 8 4 = 0#4) :
    w &&& 0xF0FF = v ↔ fieldOP w = fieldOP v ∧ fieldNN w = fieldNN v := by
  rw [fieldNN_eq_iff, fieldY_eq_iff, word_eq_iff, h2]
  simp [fieldOP, fieldN, BitVec.extractLsb'_and, nibble_and_ones]

/-! ## What a word decodes to, family by family -/

/-- The family is the high nibble (R74). -/
theorem decode_by_family (w : Word) :
    (fieldOP w = 0x0 ∧ decode w = decode0 w) ∨
    (fieldOP w = 0x1 ∧ decode w = .ok (.jp (fieldNNN w))) ∨
    (fieldOP w = 0x2 ∧ decode w = .ok (.call (fieldNNN w))) ∨
    (fieldOP w = 0x3 ∧ decode w = .ok (.seByte (fieldX w) (fieldNN w))) ∨
    (fieldOP w = 0x4 ∧ decode w = .ok (.sneByte (fieldX w) (fieldNN w))) ∨
    (fieldOP w = 0x5 ∧ decode w = decode5 w) ∨
    (fieldOP w = 0x6 ∧ decode w = .ok (.ldByte (fieldX w) (fieldNN w))) ∨
    (fieldOP w = 0x7 ∧ decode w = .ok (.addByte (fieldX w) (fieldNN w))) ∨
    (fieldOP w = 0x8 ∧ decode w = decode8 w) ∨
    (fieldOP w = 0x9 ∧ decode w = decode9 w) ∨
    (fieldOP w = 0xA ∧ decode w = .ok (.ldI (fieldNNN w))) ∨
    (fieldOP w = 0xB ∧ decode w = .ok (.jpV0 (fieldNNN w))) ∨
    (fieldOP w = 0xC ∧ decode w = .ok (.rnd (fieldX w) (fieldNN w))) ∨
    (fieldOP w = 0xD ∧ decode w = .ok (.drw (fieldX w) (fieldY w) (fieldN w).toNat)) ∨
    (fieldOP w = 0xE ∧ decode w = decodeE w) ∨
    (fieldOP w = 0xF ∧ decode w = decodeF w) := by
  have all : ∀ a : BitVec 4, a = 0x0 ∨ a = 0x1 ∨ a = 0x2 ∨ a = 0x3 ∨ a = 0x4 ∨ a = 0x5 ∨ a = 0x6 ∨
      a = 0x7 ∨ a = 0x8 ∨ a = 0x9 ∨ a = 0xA ∨ a = 0xB ∨ a = 0xC ∨ a = 0xD ∨ a = 0xE ∨ a = 0xF := by
    decide
  rcases all (fieldOP w) with h | h | h | h | h | h | h | h | h | h | h | h | h | h | h | h <;>
    simp [decode, h]

/-- One test of a decoder that answered an instruction: it held and gave it, or the rest did. -/
theorem ite_ok {c : Prop} [Decidable c] {a i : Instr} {e : Except DecodeError Instr}
    (h : (if c then .ok a else e) = Except.ok i) : (c ∧ i = a) ∨ e = .ok i := by
  split at h
  · rename_i hc; injection h with h; exact .inl ⟨hc, h.symm⟩
  · exact .inr h

theorem noRow_not_ok {w : Word} {i : Instr} : noRow w ≠ .ok i := by simp [noRow]

variable {w : Word} {i : Instr}

theorem decode0_ok (h : decode0 w = .ok i) : (w = 0x00E0 ∧ i = .cls) ∨ (w = 0x00EE ∧ i = .ret) := by
  rcases ite_ok h with h | h
  · exact .inl h
  · exact .inr ((ite_ok h).resolve_right noRow_not_ok)

theorem decode5_ok (h : decode5 w = .ok i) : fieldN w = 0x0 ∧ i = .seReg (fieldX w) (fieldY w) :=
  (ite_ok h).resolve_right noRow_not_ok

theorem decode9_ok (h : decode9 w = .ok i) : fieldN w = 0x0 ∧ i = .sneReg (fieldX w) (fieldY w) :=
  (ite_ok h).resolve_right noRow_not_ok

theorem decodeE_ok (h : decodeE w = .ok i) :
    (fieldNN w = 0x9E ∧ i = .skp (fieldX w)) ∨ (fieldNN w = 0xA1 ∧ i = .sknp (fieldX w)) := by
  rcases ite_ok h with h | h
  · exact .inl h
  · exact .inr ((ite_ok h).resolve_right noRow_not_ok)

theorem decode8_ok (h : decode8 w = .ok i) :
    (fieldN w = 0x0 ∧ i = .ldReg (fieldX w) (fieldY w)) ∨
    (fieldN w = 0x1 ∧ i = .orReg (fieldX w) (fieldY w)) ∨
    (fieldN w = 0x2 ∧ i = .andReg (fieldX w) (fieldY w)) ∨
    (fieldN w = 0x3 ∧ i = .xorReg (fieldX w) (fieldY w)) ∨
    (fieldN w = 0x4 ∧ i = .addReg (fieldX w) (fieldY w)) ∨
    (fieldN w = 0x5 ∧ i = .subReg (fieldX w) (fieldY w)) ∨
    (fieldN w = 0x6 ∧ i = .shr (fieldX w) (fieldY w)) ∨
    (fieldN w = 0x7 ∧ i = .subnReg (fieldX w) (fieldY w)) ∨
    (fieldN w = 0xE ∧ i = .shl (fieldX w) (fieldY w)) := by
  iterate 8 rcases ite_ok h with h | h <;> [exact .inl h; refine .inr ?_]
  exact (ite_ok h).resolve_right noRow_not_ok

theorem decodeF_ok (h : decodeF w = .ok i) :
    (fieldNN w = 0x07 ∧ i = .ldFromDT (fieldX w)) ∨ (fieldNN w = 0x0A ∧ i = .waitKey (fieldX w)) ∨
    (fieldNN w = 0x15 ∧ i = .ldDT (fieldX w)) ∨ (fieldNN w = 0x18 ∧ i = .ldST (fieldX w)) ∨
    (fieldNN w = 0x1E ∧ i = .addI (fieldX w)) ∨ (fieldNN w = 0x29 ∧ i = .ldF (fieldX w)) ∨
    (fieldNN w = 0x33 ∧ i = .bcd (fieldX w)) ∨ (fieldNN w = 0x55 ∧ i = .dump (fieldX w)) ∨
    (fieldNN w = 0x65 ∧ i = .load (fieldX w)) := by
  iterate 8 rcases ite_ok h with h | h <;> [exact .inl h; refine .inr ?_]
  exact (ite_ok h).resolve_right noRow_not_ok

end Sys2Proof
end

