-- ==== Sys2Proof/Laws/Display.lean ====
section
/-! SUPPORT. The framebuffer pixel by pixel. -/

namespace Sys2Proof.Machine

/-- One pixel after the exclusive OR of one pixel. -/
theorem Framebuffer.pixel_xorPixel (fb : Framebuffer) {x y : Nat} (hx : x < 64) (hy : y < 32) (b : Bool)
    (px py : Nat) (hpx : px < 64) :
    (fb.xorPixel x y b).pixel px py =
      (fb.pixel px py ^^ (b && decide (px = x) && decide (py = y))) := by
  unfold Framebuffer.xorPixel Framebuffer.pixel
  simp only [Config.fbHeight, hy, dif_pos]
  split
  · rw [Vector.getElem_set]
    split
    · rename_i h; subst h
      simp only [BitVec.getLsbD_xor, BitVec.getLsbD_shiftLeft, BitVec.getLsbD_setWidth,
        BitVec.getLsbD_ofBool]
      rcases Nat.lt_trichotomy px x with h | h | h
      · simp [h, hpx, Nat.ne_of_lt h]
      · subst h; simp [hpx]
      · have h1 : ¬px < x := by omega
        have h2 : ¬px - x = 0 := by omega
        have h3 : px ≠ x := by omega
        simp [h1, h2, h3]
    · rename_i h; simp [Ne.symm h]
  · rename_i h; have : py ≠ y := by omega
    simp [this]

theorem Framebuffer.pixel_blank (px py : Nat) : Framebuffer.blank.pixel px py = false := by
  unfold Framebuffer.blank Framebuffer.pixel
  split <;> simp

/-- Two framebuffers with the same pixels are the same. -/
theorem Framebuffer.ext_pixel {f g : Framebuffer}
    (h : ∀ px py, px < 64 → py < 32 → f.pixel px py = g.pixel px py) : f = g := by
  apply Vector.ext
  intro y hy
  apply BitVec.eq_of_getLsbD_eq
  intro x hx
  have := h x y hx hy
  simpa [Framebuffer.pixel, hy] using this

/-! ## A sprite with `SPRITE_EDGE = clip` -/

/-- The bit a sprite byte puts on screen column `px` when its first column lies on `x0` (R182). -/
def colBit (b : Byte) (x0 px : Nat) : Bool :=
  decide (x0 ≤ px) && decide (px < x0 + 8) && b.getLsbD (7 - (px - x0))

theorem onScreen_clip (size corner k : Nat) :
    onScreen .clip size corner k = if corner + k < size then some (corner + k) else none := rfl

/-- The columns of one sprite byte, pixel by pixel: only screen row `py` changes. -/
theorem Canvas.pixel_drawCols {x0 py : Nat} (b : Byte) (hy : py < 32) {cols : List Nat} (hc : cols.Nodup)
    (c : Canvas) {px : Nat} (q : Nat) (hx : px < 64) :
    (Canvas.drawCols .clip x0 py b cols c).fb.pixel px q =
      (c.fb.pixel px q ^^ (decide (q = py) && decide (x0 ≤ px ∧ px - x0 ∈ cols) &&
        b.getLsbD (7 - (px - x0)))) := by
  induction cols generalizing c with
  | nil => simp [Canvas.drawCols]
  | cons col cols ih =>
    obtain ⟨h1, h2⟩ := List.nodup_cons.1 hc
    rw [Canvas.drawCols, ih h2, onScreen_clip]
    split
    · rename_i px' h
      split at h
      · rename_i hlt; cases h
        simp only [Canvas.plot, Framebuffer.pixel_xorPixel _ hlt hy _ _ _ hx]
        by_cases hq : q = py
        · by_cases hp : px = x0 + col
          · subst hp; simp [hq, h1]
          · have : (x0 ≤ px ∧ px - x0 = col) ↔ False := by
              constructor <;> [(intro h; omega); exact False.elim]
            simp [hq, hp, and_or_left, this]
        · simp [hq]
      · cases h
    · rename_i h
      split at h
      · cases h
      · rename_i hge
        replace hge : ¬x0 + col < 64 := hge
        have : (x0 ≤ px ∧ px - x0 = col) ↔ False := by
          constructor <;> [(intro h; omega); exact False.elim]
        simp [and_or_left, this]

/-- The collision bit after the columns of one sprite byte. -/
theorem Canvas.collision_drawCols {x0 py : Nat} (b : Byte) (hy : py < 32) {cols : List Nat}
    (hc : cols.Nodup) (c : Canvas) :
    (Canvas.drawCols .clip x0 py b cols c).collision = true ↔
      c.collision = true ∨ ∃ col ∈ cols, x0 + col < 64 ∧ b.getLsbD (7 - col) = true ∧
        c.fb.pixel (x0 + col) py = true := by
  induction cols generalizing c with
  | nil => simp [Canvas.drawCols]
  | cons col cols ih =>
    obtain ⟨h1, h2⟩ := List.nodup_cons.1 hc
    rw [Canvas.drawCols, ih h2, onScreen_clip]
    by_cases hlt : x0 + col < 64
    · have keep : ∀ col' ∈ cols, x0 + col' < 64 →
          ((c.plot (x0 + col) py (b.getLsbD (7 - col))).fb.pixel (x0 + col') py =
            c.fb.pixel (x0 + col') py) := by
        intro col' hm hl
        have : col' ≠ col := fun e => h1 (e ▸ hm)
        simp [Canvas.plot, Framebuffer.pixel_xorPixel _ hlt hy _ _ _ hl, this]
      rw [if_pos hlt]
      simp only [List.mem_cons, exists_eq_or_imp]
      constructor
      · rintro (h | ⟨k, hm, hl, hb, hp⟩)
        · simp only [Canvas.plot, Bool.or_eq_true, Bool.and_eq_true] at h
          rcases h with h | h
          · exact .inl h
          · exact .inr (.inl ⟨hlt, h.1, h.2⟩)
        · exact .inr (.inr ⟨k, hm, hl, hb, by rwa [keep k hm hl] at hp⟩)
      · rintro (h | ⟨-, hb, hp⟩ | ⟨k, hm, hl, hb, hp⟩)
        · exact .inl (by simp [Canvas.plot, h])
        · exact .inl (by simp [Canvas.plot, hb, hp])
        · exact .inr ⟨k, hm, hl, hb, by rwa [keep k hm hl]⟩
    · rw [if_neg hlt]
      simp [hlt]

/-- One sprite byte on screen row `py`, pixel by pixel. -/
theorem Canvas.pixel_drawByte {x0 py : Nat} (b : Byte) (hy : py < 32) (c : Canvas) {px : Nat} (q : Nat)
    (hx : px < 64) :
    (Canvas.drawCols .clip x0 py b (List.range 8) c).fb.pixel px q =
      (c.fb.pixel px q ^^ (decide (q = py) && colBit b x0 px)) := by
  rw [Canvas.pixel_drawCols b hy List.nodup_range c q hx, colBit, Bool.and_assoc]
  congr 3
  rw [← Bool.decide_and, decide_eq_decide, List.mem_range]
  omega

/-- The collision bit after one sprite byte. -/
theorem Canvas.collision_drawByte {x0 py : Nat} (b : Byte) (hy : py < 32) (c : Canvas) :
    (Canvas.drawCols .clip x0 py b (List.range 8) c).collision = true ↔
      c.collision = true ∨ ∃ px, px < 64 ∧ colBit b x0 px = true ∧ c.fb.pixel px py = true := by
  rw [Canvas.collision_drawCols b hy List.nodup_range c]
  refine or_congr_right ⟨?_, ?_⟩
  · rintro ⟨col, hm, hl, hb, hp⟩
    rw [List.mem_range] at hm
    exact ⟨x0 + col, hl, by simp [colBit, hm, hb], hp⟩
  · rintro ⟨px, hl, hb, hp⟩
    simp only [colBit, Bool.and_eq_true, decide_eq_true_eq] at hb
    exact ⟨px - x0, by rw [List.mem_range]; omega, by omega, hb.2,
      by rwa [show x0 + (px - x0) = px by omega]⟩

/-- The bit the sprite bytes from row `row` on put on screen position `(px, py)` (R182). -/
def rowsBit (x0 y0 row : Nat) (bs : List Byte) (px py : Nat) : Bool :=
  decide (y0 + row ≤ py) && decide (py < y0 + row + bs.length) &&
    colBit (bs.getD (py - (y0 + row)) 0) x0 px

theorem rowsBit_cons (x0 y0 row : Nat) (b : Byte) (bs : List Byte) (px py : Nat) :
    rowsBit x0 y0 row (b :: bs) px py =
      if py = y0 + row then colBit b x0 px else rowsBit x0 y0 (row + 1) bs px py := by
  unfold rowsBit
  split
  · rename_i h; subst h; simp
  · rename_i h
    by_cases hle : y0 + row ≤ py
    · rw [show py - (y0 + row) = (py - (y0 + (row + 1))) + 1 by omega, List.getD_cons_succ,
        List.length_cons]
      congr 2
      · rw [decide_eq_decide]; omega
      · rw [decide_eq_decide]; omega
    · have : ¬y0 + (row + 1) ≤ py := by omega
      simp [hle, this]

/-- Everything drawing a sprite can do to the canvas: each pixel takes the exclusive OR with the sprite's bit
there, and the collision bit is set exactly when both were on (R181, R183). -/
theorem Canvas.drawRows_spec (x0 y0 : Nat) (bs : List Byte) (row : Nat) (c : Canvas) :
    (∀ px py, px < 64 → py < 32 →
      (Canvas.drawRows .clip x0 y0 row bs c).fb.pixel px py =
        (c.fb.pixel px py ^^ rowsBit x0 y0 row bs px py)) ∧
    ((Canvas.drawRows .clip x0 y0 row bs c).collision = true ↔
      c.collision = true ∨ ∃ px py, px < 64 ∧ py < 32 ∧ rowsBit x0 y0 row bs px py = true ∧
        c.fb.pixel px py = true) := by
  induction bs generalizing row c with
  | nil =>
    have off : ∀ px py, rowsBit x0 y0 row [] px py = false := by
      intro px py
      by_cases h : y0 + row ≤ py
      · have : ¬py < y0 + row := by omega
        simp [rowsBit, this]
      · simp [rowsBit, h]
    simp [Canvas.drawRows, off]
  | cons b bs ih =>
    rw [Canvas.drawRows, onScreen_clip]
    have below : ∀ px py, py ≤ y0 + row → rowsBit x0 y0 (row + 1) bs px py = false := by
      intro px py h
      have : ¬y0 + (row + 1) ≤ py := by omega
      simp [rowsBit, this]
    by_cases hlt : y0 + row < 32
    · rw [if_pos hlt]
      simp only
      obtain ⟨ihp, ihc⟩ := ih (row + 1) (Canvas.drawCols .clip x0 (y0 + row) b (List.range 8) c)
      refine ⟨fun px py hx hy => ?_, ?_⟩
      · rw [ihp px py hx hy, Canvas.pixel_drawByte b hlt c py hx, rowsBit_cons]
        split
        · rename_i h; rw [below px py h.le]; simp [h]
        · rename_i h; simp [h]
      · rw [ihc, Canvas.collision_drawByte b hlt c, or_assoc]
        refine or_congr_right ⟨?_, ?_⟩
        · rintro (⟨px, hx, hb, hp⟩ | ⟨px, py, hx, hy, hb, hp⟩)
          · exact ⟨px, y0 + row, hx, hlt, by rw [rowsBit_cons, if_pos rfl]; exact hb, hp⟩
          · have hne : py ≠ y0 + row := by
              rintro rfl; rw [below px _ le_rfl] at hb; exact Bool.noConfusion hb
            rw [Canvas.pixel_drawByte b hlt c py hx] at hp
            exact ⟨px, py, hx, hy, by rw [rowsBit_cons, if_neg hne]; exact hb, by simpa [hne] using hp⟩
        · rintro ⟨px, py, hx, hy, hb, hp⟩
          rw [rowsBit_cons] at hb
          split at hb
          · rename_i h; subst h; exact .inl ⟨px, hx, hb, hp⟩
          · rename_i hne
            refine .inr ⟨px, py, hx, hy, hb, ?_⟩
            rw [Canvas.pixel_drawByte b hlt c py hx]; simpa [hne] using hp
    · rw [if_neg hlt]
      simp only
      obtain ⟨ihp, ihc⟩ := ih (row + 1) c
      have off : ∀ px py, py < 32 → rowsBit x0 y0 row (b :: bs) px py =
          rowsBit x0 y0 (row + 1) bs px py := by
        intro px py hy; rw [rowsBit_cons, if_neg (by omega)]
      refine ⟨fun px py hx hy => by rw [ihp px py hx hy, off px py hy], ?_⟩
      rw [ihc]
      refine or_congr_right ⟨?_, ?_⟩ <;> rintro ⟨px, py, hx, hy, hb, hp⟩ <;>
        exact ⟨px, py, hx, hy, by simpa [off px py hy] using hb, hp⟩

end Sys2Proof.Machine
end

