-- ==== Sys2Proof/Laws/State.lean ====
section
/-! SUPPORT. The state after each update, one lemma per field per update, all true by unfolding; a later proof
unfolds no record update. -/

namespace Sys2Proof.Machine

variable (s : State)

/-! ## `State.writeV` -/

@[simp] theorem State.writeV_V (x : RegId) (v : Byte) : (s.writeV x v).V = s.V.set x v := rfl
@[simp] theorem State.writeV_I (x : RegId) (v : Byte) : (s.writeV x v).I = s.I := rfl
@[simp] theorem State.writeV_pc (x : RegId) (v : Byte) : (s.writeV x v).pc = s.pc := rfl
@[simp] theorem State.writeV_stack (x : RegId) (v : Byte) : (s.writeV x v).stack = s.stack := rfl
@[simp] theorem State.writeV_sp (x : RegId) (v : Byte) : (s.writeV x v).sp = s.sp := rfl
@[simp] theorem State.writeV_DT (x : RegId) (v : Byte) : (s.writeV x v).DT = s.DT := rfl
@[simp] theorem State.writeV_ST (x : RegId) (v : Byte) : (s.writeV x v).ST = s.ST := rfl
@[simp] theorem State.writeV_keypad (x : RegId) (v : Byte) : (s.writeV x v).keypad = s.keypad := rfl
@[simp] theorem State.writeV_fb (x : RegId) (v : Byte) : (s.writeV x v).fb = s.fb := rfl
@[simp] theorem State.writeV_halted (x : RegId) (v : Byte) : (s.writeV x v).halted = s.halted := rfl
@[simp] theorem State.writeV_currentOpcode (x : RegId) (v : Byte) :
    (s.writeV x v).currentOpcode = s.currentOpcode := rfl
@[simp] theorem State.writeV_mem (x : RegId) (v : Byte) : (s.writeV x v).mem = s.mem := rfl
@[simp] theorem State.writeV_fault (x : RegId) (v : Byte) : (s.writeV x v).fault = s.fault := rfl
@[simp] theorem State.writeV_draws (x : RegId) (v : Byte) : (s.writeV x v).draws = s.draws := rfl

/-! ## `State.setI` -/

@[simp] theorem State.setI_V (a : Word) : (s.setI a).V = s.V := rfl
@[simp] theorem State.setI_I (a : Word) : (s.setI a).I = a := rfl
@[simp] theorem State.setI_pc (a : Word) : (s.setI a).pc = s.pc := rfl
@[simp] theorem State.setI_stack (a : Word) : (s.setI a).stack = s.stack := rfl
@[simp] theorem State.setI_sp (a : Word) : (s.setI a).sp = s.sp := rfl
@[simp] theorem State.setI_DT (a : Word) : (s.setI a).DT = s.DT := rfl
@[simp] theorem State.setI_ST (a : Word) : (s.setI a).ST = s.ST := rfl
@[simp] theorem State.setI_keypad (a : Word) : (s.setI a).keypad = s.keypad := rfl
@[simp] theorem State.setI_fb (a : Word) : (s.setI a).fb = s.fb := rfl
@[simp] theorem State.setI_halted (a : Word) : (s.setI a).halted = s.halted := rfl
@[simp] theorem State.setI_currentOpcode (a : Word) : (s.setI a).currentOpcode = s.currentOpcode := rfl
@[simp] theorem State.setI_mem (a : Word) : (s.setI a).mem = s.mem := rfl
@[simp] theorem State.setI_fault (a : Word) : (s.setI a).fault = s.fault := rfl
@[simp] theorem State.setI_draws (a : Word) : (s.setI a).draws = s.draws := rfl

/-! ## `State.setPc` -/

@[simp] theorem State.setPc_V (a : Word) : (s.setPc a).V = s.V := rfl
@[simp] theorem State.setPc_I (a : Word) : (s.setPc a).I = s.I := rfl
@[simp] theorem State.setPc_pc (a : Word) : (s.setPc a).pc = a := rfl
@[simp] theorem State.setPc_stack (a : Word) : (s.setPc a).stack = s.stack := rfl
@[simp] theorem State.setPc_sp (a : Word) : (s.setPc a).sp = s.sp := rfl
@[simp] theorem State.setPc_DT (a : Word) : (s.setPc a).DT = s.DT := rfl
@[simp] theorem State.setPc_ST (a : Word) : (s.setPc a).ST = s.ST := rfl
@[simp] theorem State.setPc_keypad (a : Word) : (s.setPc a).keypad = s.keypad := rfl
@[simp] theorem State.setPc_fb (a : Word) : (s.setPc a).fb = s.fb := rfl
@[simp] theorem State.setPc_halted (a : Word) : (s.setPc a).halted = s.halted := rfl
@[simp] theorem State.setPc_currentOpcode (a : Word) : (s.setPc a).currentOpcode = s.currentOpcode := rfl
@[simp] theorem State.setPc_mem (a : Word) : (s.setPc a).mem = s.mem := rfl
@[simp] theorem State.setPc_fault (a : Word) : (s.setPc a).fault = s.fault := rfl
@[simp] theorem State.setPc_draws (a : Word) : (s.setPc a).draws = s.draws := rfl

/-! ## `State.advance` -/

@[simp] theorem State.advance_V : s.advance.V = s.V := rfl
@[simp] theorem State.advance_I : s.advance.I = s.I := rfl
@[simp] theorem State.advance_pc : s.advance.pc = s.pc + 2 := rfl
@[simp] theorem State.advance_stack : s.advance.stack = s.stack := rfl
@[simp] theorem State.advance_sp : s.advance.sp = s.sp := rfl
@[simp] theorem State.advance_DT : s.advance.DT = s.DT := rfl
@[simp] theorem State.advance_ST : s.advance.ST = s.ST := rfl
@[simp] theorem State.advance_keypad : s.advance.keypad = s.keypad := rfl
@[simp] theorem State.advance_fb : s.advance.fb = s.fb := rfl
@[simp] theorem State.advance_halted : s.advance.halted = s.halted := rfl
@[simp] theorem State.advance_currentOpcode : s.advance.currentOpcode = s.currentOpcode := rfl
@[simp] theorem State.advance_mem : s.advance.mem = s.mem := rfl
@[simp] theorem State.advance_fault : s.advance.fault = s.fault := rfl
@[simp] theorem State.advance_draws : s.advance.draws = s.draws := rfl

/-! ## `State.skipIf` -/

@[simp] theorem State.skipIf_V (c : Bool) : (s.skipIf c).V = s.V := rfl
@[simp] theorem State.skipIf_I (c : Bool) : (s.skipIf c).I = s.I := rfl
@[simp] theorem State.skipIf_pc (c : Bool) : (s.skipIf c).pc = if c then s.pc + 4 else s.pc + 2 := rfl
@[simp] theorem State.skipIf_stack (c : Bool) : (s.skipIf c).stack = s.stack := rfl
@[simp] theorem State.skipIf_sp (c : Bool) : (s.skipIf c).sp = s.sp := rfl
@[simp] theorem State.skipIf_DT (c : Bool) : (s.skipIf c).DT = s.DT := rfl
@[simp] theorem State.skipIf_ST (c : Bool) : (s.skipIf c).ST = s.ST := rfl
@[simp] theorem State.skipIf_keypad (c : Bool) : (s.skipIf c).keypad = s.keypad := rfl
@[simp] theorem State.skipIf_fb (c : Bool) : (s.skipIf c).fb = s.fb := rfl
@[simp] theorem State.skipIf_halted (c : Bool) : (s.skipIf c).halted = s.halted := rfl
@[simp] theorem State.skipIf_currentOpcode (c : Bool) : (s.skipIf c).currentOpcode = s.currentOpcode := rfl
@[simp] theorem State.skipIf_mem (c : Bool) : (s.skipIf c).mem = s.mem := rfl
@[simp] theorem State.skipIf_fault (c : Bool) : (s.skipIf c).fault = s.fault := rfl
@[simp] theorem State.skipIf_draws (c : Bool) : (s.skipIf c).draws = s.draws := rfl

/-! ## `State.setDT` -/

@[simp] theorem State.setDT_V (v : Byte) : (s.setDT v).V = s.V := rfl
@[simp] theorem State.setDT_I (v : Byte) : (s.setDT v).I = s.I := rfl
@[simp] theorem State.setDT_pc (v : Byte) : (s.setDT v).pc = s.pc := rfl
@[simp] theorem State.setDT_stack (v : Byte) : (s.setDT v).stack = s.stack := rfl
@[simp] theorem State.setDT_sp (v : Byte) : (s.setDT v).sp = s.sp := rfl
@[simp] theorem State.setDT_DT (v : Byte) : (s.setDT v).DT = v := rfl
@[simp] theorem State.setDT_ST (v : Byte) : (s.setDT v).ST = s.ST := rfl
@[simp] theorem State.setDT_keypad (v : Byte) : (s.setDT v).keypad = s.keypad := rfl
@[simp] theorem State.setDT_fb (v : Byte) : (s.setDT v).fb = s.fb := rfl
@[simp] theorem State.setDT_halted (v : Byte) : (s.setDT v).halted = s.halted := rfl
@[simp] theorem State.setDT_currentOpcode (v : Byte) : (s.setDT v).currentOpcode = s.currentOpcode := rfl
@[simp] theorem State.setDT_mem (v : Byte) : (s.setDT v).mem = s.mem := rfl
@[simp] theorem State.setDT_fault (v : Byte) : (s.setDT v).fault = s.fault := rfl
@[simp] theorem State.setDT_draws (v : Byte) : (s.setDT v).draws = s.draws := rfl

/-! ## `State.setST` -/

@[simp] theorem State.setST_V (v : Byte) : (s.setST v).V = s.V := rfl
@[simp] theorem State.setST_I (v : Byte) : (s.setST v).I = s.I := rfl
@[simp] theorem State.setST_pc (v : Byte) : (s.setST v).pc = s.pc := rfl
@[simp] theorem State.setST_stack (v : Byte) : (s.setST v).stack = s.stack := rfl
@[simp] theorem State.setST_sp (v : Byte) : (s.setST v).sp = s.sp := rfl
@[simp] theorem State.setST_DT (v : Byte) : (s.setST v).DT = s.DT := rfl
@[simp] theorem State.setST_ST (v : Byte) : (s.setST v).ST = v := rfl
@[simp] theorem State.setST_keypad (v : Byte) : (s.setST v).keypad = s.keypad := rfl
@[simp] theorem State.setST_fb (v : Byte) : (s.setST v).fb = s.fb := rfl
@[simp] theorem State.setST_halted (v : Byte) : (s.setST v).halted = s.halted := rfl
@[simp] theorem State.setST_currentOpcode (v : Byte) : (s.setST v).currentOpcode = s.currentOpcode := rfl
@[simp] theorem State.setST_mem (v : Byte) : (s.setST v).mem = s.mem := rfl
@[simp] theorem State.setST_fault (v : Byte) : (s.setST v).fault = s.fault := rfl
@[simp] theorem State.setST_draws (v : Byte) : (s.setST v).draws = s.draws := rfl

/-! ## `State.setHalted` -/

@[simp] theorem State.setHalted_V (b : Bool) : (s.setHalted b).V = s.V := rfl
@[simp] theorem State.setHalted_I (b : Bool) : (s.setHalted b).I = s.I := rfl
@[simp] theorem State.setHalted_pc (b : Bool) : (s.setHalted b).pc = s.pc := rfl
@[simp] theorem State.setHalted_stack (b : Bool) : (s.setHalted b).stack = s.stack := rfl
@[simp] theorem State.setHalted_sp (b : Bool) : (s.setHalted b).sp = s.sp := rfl
@[simp] theorem State.setHalted_DT (b : Bool) : (s.setHalted b).DT = s.DT := rfl
@[simp] theorem State.setHalted_ST (b : Bool) : (s.setHalted b).ST = s.ST := rfl
@[simp] theorem State.setHalted_keypad (b : Bool) : (s.setHalted b).keypad = s.keypad := rfl
@[simp] theorem State.setHalted_fb (b : Bool) : (s.setHalted b).fb = s.fb := rfl
@[simp] theorem State.setHalted_halted (b : Bool) : (s.setHalted b).halted = b := rfl
@[simp] theorem State.setHalted_currentOpcode (b : Bool) :
    (s.setHalted b).currentOpcode = s.currentOpcode := rfl
@[simp] theorem State.setHalted_mem (b : Bool) : (s.setHalted b).mem = s.mem := rfl
@[simp] theorem State.setHalted_fault (b : Bool) : (s.setHalted b).fault = s.fault := rfl
@[simp] theorem State.setHalted_draws (b : Bool) : (s.setHalted b).draws = s.draws := rfl

/-! ## `State.setKey` -/

@[simp] theorem State.setKey_V (k : Fin Config.nKeys) (b : Bool) : (s.setKey k b).V = s.V := rfl
@[simp] theorem State.setKey_I (k : Fin Config.nKeys) (b : Bool) : (s.setKey k b).I = s.I := rfl
@[simp] theorem State.setKey_pc (k : Fin Config.nKeys) (b : Bool) : (s.setKey k b).pc = s.pc := rfl
@[simp] theorem State.setKey_stack (k : Fin Config.nKeys) (b : Bool) : (s.setKey k b).stack = s.stack := rfl
@[simp] theorem State.setKey_sp (k : Fin Config.nKeys) (b : Bool) : (s.setKey k b).sp = s.sp := rfl
@[simp] theorem State.setKey_DT (k : Fin Config.nKeys) (b : Bool) : (s.setKey k b).DT = s.DT := rfl
@[simp] theorem State.setKey_ST (k : Fin Config.nKeys) (b : Bool) : (s.setKey k b).ST = s.ST := rfl
@[simp] theorem State.setKey_keypad (k : Fin Config.nKeys) (b : Bool) :
    (s.setKey k b).keypad = s.keypad.set k b := rfl
@[simp] theorem State.setKey_fb (k : Fin Config.nKeys) (b : Bool) : (s.setKey k b).fb = s.fb := rfl
@[simp] theorem State.setKey_halted (k : Fin Config.nKeys) (b : Bool) :
    (s.setKey k b).halted = s.halted := rfl
@[simp] theorem State.setKey_currentOpcode (k : Fin Config.nKeys) (b : Bool) :
    (s.setKey k b).currentOpcode = s.currentOpcode := rfl
@[simp] theorem State.setKey_mem (k : Fin Config.nKeys) (b : Bool) : (s.setKey k b).mem = s.mem := rfl
@[simp] theorem State.setKey_fault (k : Fin Config.nKeys) (b : Bool) : (s.setKey k b).fault = s.fault := rfl
@[simp] theorem State.setKey_draws (k : Fin Config.nKeys) (b : Bool) : (s.setKey k b).draws = s.draws := rfl

/-! ## `State.setOpcode` -/

@[simp] theorem State.setOpcode_V (w : Word) : (s.setOpcode w).V = s.V := rfl
@[simp] theorem State.setOpcode_I (w : Word) : (s.setOpcode w).I = s.I := rfl
@[simp] theorem State.setOpcode_pc (w : Word) : (s.setOpcode w).pc = s.pc := rfl
@[simp] theorem State.setOpcode_stack (w : Word) : (s.setOpcode w).stack = s.stack := rfl
@[simp] theorem State.setOpcode_sp (w : Word) : (s.setOpcode w).sp = s.sp := rfl
@[simp] theorem State.setOpcode_DT (w : Word) : (s.setOpcode w).DT = s.DT := rfl
@[simp] theorem State.setOpcode_ST (w : Word) : (s.setOpcode w).ST = s.ST := rfl
@[simp] theorem State.setOpcode_keypad (w : Word) : (s.setOpcode w).keypad = s.keypad := rfl
@[simp] theorem State.setOpcode_fb (w : Word) : (s.setOpcode w).fb = s.fb := rfl
@[simp] theorem State.setOpcode_halted (w : Word) : (s.setOpcode w).halted = s.halted := rfl
@[simp] theorem State.setOpcode_currentOpcode (w : Word) : (s.setOpcode w).currentOpcode = w := rfl
@[simp] theorem State.setOpcode_mem (w : Word) : (s.setOpcode w).mem = s.mem := rfl
@[simp] theorem State.setOpcode_fault (w : Word) : (s.setOpcode w).fault = s.fault := rfl
@[simp] theorem State.setOpcode_draws (w : Word) : (s.setOpcode w).draws = s.draws := rfl

/-! ## `State.setFb` -/

@[simp] theorem State.setFb_V (f : Framebuffer) : (s.setFb f).V = s.V := rfl
@[simp] theorem State.setFb_I (f : Framebuffer) : (s.setFb f).I = s.I := rfl
@[simp] theorem State.setFb_pc (f : Framebuffer) : (s.setFb f).pc = s.pc := rfl
@[simp] theorem State.setFb_stack (f : Framebuffer) : (s.setFb f).stack = s.stack := rfl
@[simp] theorem State.setFb_sp (f : Framebuffer) : (s.setFb f).sp = s.sp := rfl
@[simp] theorem State.setFb_DT (f : Framebuffer) : (s.setFb f).DT = s.DT := rfl
@[simp] theorem State.setFb_ST (f : Framebuffer) : (s.setFb f).ST = s.ST := rfl
@[simp] theorem State.setFb_keypad (f : Framebuffer) : (s.setFb f).keypad = s.keypad := rfl
@[simp] theorem State.setFb_fb (f : Framebuffer) : (s.setFb f).fb = f := rfl
@[simp] theorem State.setFb_halted (f : Framebuffer) : (s.setFb f).halted = s.halted := rfl
@[simp] theorem State.setFb_currentOpcode (f : Framebuffer) :
    (s.setFb f).currentOpcode = s.currentOpcode := rfl
@[simp] theorem State.setFb_mem (f : Framebuffer) : (s.setFb f).mem = s.mem := rfl
@[simp] theorem State.setFb_fault (f : Framebuffer) : (s.setFb f).fault = s.fault := rfl
@[simp] theorem State.setFb_draws (f : Framebuffer) : (s.setFb f).draws = s.draws := rfl

/-! ## `State.setMem` -/

@[simp] theorem State.setMem_V (m : Memory) : (s.setMem m).V = s.V := rfl
@[simp] theorem State.setMem_I (m : Memory) : (s.setMem m).I = s.I := rfl
@[simp] theorem State.setMem_pc (m : Memory) : (s.setMem m).pc = s.pc := rfl
@[simp] theorem State.setMem_stack (m : Memory) : (s.setMem m).stack = s.stack := rfl
@[simp] theorem State.setMem_sp (m : Memory) : (s.setMem m).sp = s.sp := rfl
@[simp] theorem State.setMem_DT (m : Memory) : (s.setMem m).DT = s.DT := rfl
@[simp] theorem State.setMem_ST (m : Memory) : (s.setMem m).ST = s.ST := rfl
@[simp] theorem State.setMem_keypad (m : Memory) : (s.setMem m).keypad = s.keypad := rfl
@[simp] theorem State.setMem_fb (m : Memory) : (s.setMem m).fb = s.fb := rfl
@[simp] theorem State.setMem_halted (m : Memory) : (s.setMem m).halted = s.halted := rfl
@[simp] theorem State.setMem_currentOpcode (m : Memory) :
    (s.setMem m).currentOpcode = s.currentOpcode := rfl
@[simp] theorem State.setMem_mem (m : Memory) : (s.setMem m).mem = m := rfl
@[simp] theorem State.setMem_fault (m : Memory) : (s.setMem m).fault = s.fault := rfl
@[simp] theorem State.setMem_draws (m : Memory) : (s.setMem m).draws = s.draws := rfl

/-! ## `State.countDraw` -/

@[simp] theorem State.countDraw_V : s.countDraw.V = s.V := rfl
@[simp] theorem State.countDraw_I : s.countDraw.I = s.I := rfl
@[simp] theorem State.countDraw_pc : s.countDraw.pc = s.pc := rfl
@[simp] theorem State.countDraw_stack : s.countDraw.stack = s.stack := rfl
@[simp] theorem State.countDraw_sp : s.countDraw.sp = s.sp := rfl
@[simp] theorem State.countDraw_DT : s.countDraw.DT = s.DT := rfl
@[simp] theorem State.countDraw_ST : s.countDraw.ST = s.ST := rfl
@[simp] theorem State.countDraw_keypad : s.countDraw.keypad = s.keypad := rfl
@[simp] theorem State.countDraw_fb : s.countDraw.fb = s.fb := rfl
@[simp] theorem State.countDraw_halted : s.countDraw.halted = s.halted := rfl
@[simp] theorem State.countDraw_currentOpcode : s.countDraw.currentOpcode = s.currentOpcode := rfl
@[simp] theorem State.countDraw_mem : s.countDraw.mem = s.mem := rfl
@[simp] theorem State.countDraw_fault : s.countDraw.fault = s.fault := rfl
@[simp] theorem State.countDraw_draws : s.countDraw.draws = s.draws + 1 := rfl

/-! ## `State.raise` -/

@[simp] theorem State.raise_V (f : Fault) : (s.raise f).V = s.V := rfl
@[simp] theorem State.raise_I (f : Fault) : (s.raise f).I = s.I := rfl
@[simp] theorem State.raise_pc (f : Fault) : (s.raise f).pc = s.pc := rfl
@[simp] theorem State.raise_stack (f : Fault) : (s.raise f).stack = s.stack := rfl
@[simp] theorem State.raise_sp (f : Fault) : (s.raise f).sp = s.sp := rfl
@[simp] theorem State.raise_DT (f : Fault) : (s.raise f).DT = s.DT := rfl
@[simp] theorem State.raise_ST (f : Fault) : (s.raise f).ST = s.ST := rfl
@[simp] theorem State.raise_keypad (f : Fault) : (s.raise f).keypad = s.keypad := rfl
@[simp] theorem State.raise_fb (f : Fault) : (s.raise f).fb = s.fb := rfl
@[simp] theorem State.raise_halted (f : Fault) : (s.raise f).halted = s.halted := rfl
@[simp] theorem State.raise_currentOpcode (f : Fault) : (s.raise f).currentOpcode = s.currentOpcode := rfl
@[simp] theorem State.raise_mem (f : Fault) : (s.raise f).mem = s.mem := rfl
@[simp] theorem State.raise_fault (f : Fault) : (s.raise f).fault = some f := rfl
@[simp] theorem State.raise_draws (f : Fault) : (s.raise f).draws = s.draws := rfl

/-! ## `State.tick` -/

@[simp] theorem State.tick_V : s.tick.V = s.V := rfl
@[simp] theorem State.tick_I : s.tick.I = s.I := rfl
@[simp] theorem State.tick_pc : s.tick.pc = s.pc := rfl
@[simp] theorem State.tick_stack : s.tick.stack = s.stack := rfl
@[simp] theorem State.tick_sp : s.tick.sp = s.sp := rfl
@[simp] theorem State.tick_DT : s.tick.DT = if s.DT ≠ 0 then s.DT - 1 else s.DT := rfl
@[simp] theorem State.tick_ST : s.tick.ST = if s.ST ≠ 0 then s.ST - 1 else s.ST := rfl
@[simp] theorem State.tick_keypad : s.tick.keypad = s.keypad := rfl
@[simp] theorem State.tick_fb : s.tick.fb = s.fb := rfl
@[simp] theorem State.tick_halted : s.tick.halted = s.halted := rfl
@[simp] theorem State.tick_currentOpcode : s.tick.currentOpcode = s.currentOpcode := rfl
@[simp] theorem State.tick_mem : s.tick.mem = s.mem := rfl
@[simp] theorem State.tick_fault : s.tick.fault = s.fault := rfl
@[simp] theorem State.tick_draws : s.tick.draws = s.draws := rfl

/-! ## `State.writeVFlag` -/

@[simp] theorem State.writeVFlag_V (x : RegId) (r f : Byte) :
    (s.writeVFlag x r f).V = (s.V.set x r).set vF f := rfl
@[simp] theorem State.writeVFlag_I (x : RegId) (r f : Byte) : (s.writeVFlag x r f).I = s.I := rfl
@[simp] theorem State.writeVFlag_pc (x : RegId) (r f : Byte) : (s.writeVFlag x r f).pc = s.pc := rfl
@[simp] theorem State.writeVFlag_stack (x : RegId) (r f : Byte) :
    (s.writeVFlag x r f).stack = s.stack := rfl
@[simp] theorem State.writeVFlag_sp (x : RegId) (r f : Byte) : (s.writeVFlag x r f).sp = s.sp := rfl
@[simp] theorem State.writeVFlag_DT (x : RegId) (r f : Byte) : (s.writeVFlag x r f).DT = s.DT := rfl
@[simp] theorem State.writeVFlag_ST (x : RegId) (r f : Byte) : (s.writeVFlag x r f).ST = s.ST := rfl
@[simp] theorem State.writeVFlag_keypad (x : RegId) (r f : Byte) :
    (s.writeVFlag x r f).keypad = s.keypad := rfl
@[simp] theorem State.writeVFlag_fb (x : RegId) (r f : Byte) : (s.writeVFlag x r f).fb = s.fb := rfl
@[simp] theorem State.writeVFlag_halted (x : RegId) (r f : Byte) :
    (s.writeVFlag x r f).halted = s.halted := rfl
@[simp] theorem State.writeVFlag_currentOpcode (x : RegId) (r f : Byte) :
    (s.writeVFlag x r f).currentOpcode = s.currentOpcode := rfl
@[simp] theorem State.writeVFlag_mem (x : RegId) (r f : Byte) : (s.writeVFlag x r f).mem = s.mem := rfl
@[simp] theorem State.writeVFlag_fault (x : RegId) (r f : Byte) :
    (s.writeVFlag x r f).fault = s.fault := rfl
@[simp] theorem State.writeVFlag_draws (x : RegId) (r f : Byte) :
    (s.writeVFlag x r f).draws = s.draws := rfl

/-! ## `State.loadRegs` -/

@[simp] theorem State.loadRegs_V (x : RegId) :
    (s.loadRegs x).V = Vector.ofFn fun k : Fin 16 => if k ≤ x then s.mem.read (s.effAddr k.val) else s.V[k] := rfl
@[simp] theorem State.loadRegs_I (x : RegId) : (s.loadRegs x).I = s.I := rfl
@[simp] theorem State.loadRegs_pc (x : RegId) : (s.loadRegs x).pc = s.pc := rfl
@[simp] theorem State.loadRegs_stack (x : RegId) : (s.loadRegs x).stack = s.stack := rfl
@[simp] theorem State.loadRegs_sp (x : RegId) : (s.loadRegs x).sp = s.sp := rfl
@[simp] theorem State.loadRegs_DT (x : RegId) : (s.loadRegs x).DT = s.DT := rfl
@[simp] theorem State.loadRegs_ST (x : RegId) : (s.loadRegs x).ST = s.ST := rfl
@[simp] theorem State.loadRegs_keypad (x : RegId) : (s.loadRegs x).keypad = s.keypad := rfl
@[simp] theorem State.loadRegs_fb (x : RegId) : (s.loadRegs x).fb = s.fb := rfl
@[simp] theorem State.loadRegs_halted (x : RegId) : (s.loadRegs x).halted = s.halted := rfl
@[simp] theorem State.loadRegs_currentOpcode (x : RegId) :
    (s.loadRegs x).currentOpcode = s.currentOpcode := rfl
@[simp] theorem State.loadRegs_mem (x : RegId) : (s.loadRegs x).mem = s.mem := rfl
@[simp] theorem State.loadRegs_fault (x : RegId) : (s.loadRegs x).fault = s.fault := rfl
@[simp] theorem State.loadRegs_draws (x : RegId) : (s.loadRegs x).draws = s.draws := rfl

end Sys2Proof.Machine
end

