-- ==== Sys2Proof/Laws/Ops.lean ====
section
/-! SUPPORT. What each shared operation can do, said once. -/

namespace Sys2Proof.Machine

variable {s t : State}

/-- A register read after a register write. -/
theorem State.readV_writeV (x r : RegId) (v : Byte) :
    (s.writeV x v).readV r = if r = x then v else s.readV r := by
  simp only [State.readV, State.writeV, Fin.getElem_fin, Vector.getElem_set, Fin.ext_iff, eq_comm]

/-- A register read after a result and a flag: VF holds the flag (R142). -/
theorem State.readV_writeVFlag (x r : RegId) (v f : Byte) :
    (s.writeVFlag x v f).readV r = if r = vF then f else if r = x then v else s.readV r := by
  rw [State.writeVFlag, State.readV_writeV, State.readV_writeV]

/-- Pushing onto a stack that is not full: one entry and `sp` written. -/
theorem State.push_of_lt {a : Word} (h : s.sp.val < Config.stackDepth) :
    s.push a =
      some { s with stack := s.stack.set s.sp.val a, sp := ⟨s.sp.val + 1, by omega⟩ } :=
  dif_pos h

/-- Pushing onto a full stack gives nothing. -/
theorem State.push_of_full {a : Word} (h : s.sp.val = Config.stackDepth) : s.push a = none :=
  dif_neg (by omega)

/-- Popping a stack that is not empty: the entry below `sp`, only `sp` written. -/
theorem State.pop_of_pos (h : 0 < s.sp.val) :
    s.pop = some (s.stack[s.sp.val - 1], { s with sp := ⟨s.sp.val - 1, by omega⟩ }) :=
  dif_pos h

/-- Popping an empty stack gives nothing. -/
theorem State.pop_of_zero (h : s.sp.val = 0) : s.pop = none := dif_neg (by omega)

/-- The range check passes or faults; it does nothing else. -/
theorem State.checked_cases (kind : OutOfRange) (k : Nat) (e : State) :
    (s.I.toNat + k - 1 ≤ 0xFFF ∧ s.checked kind k e = e) ∨
    (0xFFF < s.I.toNat + k - 1 ∧ s.checked kind k e = s.raise (.outOfRange kind s.I.toNat)) := by
  unfold State.checked State.inRange
  by_cases h : s.I.toNat + k - 1 ≤ 0xFFF
  · exact .inl ⟨h, by simp [h]⟩
  · exact .inr ⟨by omega, by simp [h]⟩

/-- The key a register value names: itself, when it is at most 15. -/
theorem keyIndex_of_le {v : Byte} (h : v.toNat < Config.nKeys) : keyIndex v = some ⟨v.toNat, h⟩ :=
  dif_pos h

theorem keyIndex_of_gt {v : Byte} (h : 15 < v.toNat) : keyIndex v = none :=
  dif_neg (not_lt.2 h)

/-- The key the wait takes is down, and no lesser key is. -/
theorem State.leastKey_some {k : Fin Config.nKeys} (h : s.leastKey = some k) :
    s.keypad[k] = true ∧ ∀ j : Fin Config.nKeys, j < k → s.keypad[j] = false := by
  unfold State.leastKey at h
  rw [List.find?_eq_some_iff_append] at h
  obtain ⟨hk, as, bs, e, has⟩ := h
  refine ⟨by simpa using hk, fun j hj => ?_⟩
  have hp : (as ++ k :: bs).Pairwise (· < ·) := e ▸ List.pairwise_lt_finRange _
  have hm : j ∈ as ++ k :: bs := e ▸ List.mem_finRange j
  rw [List.pairwise_append, List.pairwise_cons] at hp
  rcases List.mem_append.1 hm with h' | h'
  · simpa using has j h'
  · rcases List.mem_cons.1 h' with rfl | h'
    · exact absurd hj (lt_irrefl _)
    · exact absurd (hp.2.1.1 j h') (not_lt.2 hj.le)

/-- No key is down exactly when the search finds none. -/
theorem State.leastKey_none :
    s.leastKey = none ↔ ∀ k : Fin Config.nKeys, s.keypad[k] = false := by
  simp [State.leastKey, List.find?_eq_none]

/-- One tick takes one from each timer that is not 0. -/
theorem State.tick_toNat :
    s.tick.DT.toNat = s.DT.toNat - 1 ∧ s.tick.ST.toNat = s.ST.toNat - 1 := by
  constructor
  · by_cases h : s.DT = 0
    · simp [State.tick, h]
    · have : s.DT.toNat ≠ 0 := fun e => h (BitVec.eq_of_toNat_eq (by simpa using e))
      simp only [State.tick_DT, ne_eq, h, not_false_eq_true, if_true, BitVec.toNat_sub]
      have := s.DT.isLt
      simp; omega
  · by_cases h : s.ST = 0
    · simp [State.tick, h]
    · have : s.ST.toNat ≠ 0 := fun e => h (BitVec.eq_of_toNat_eq (by simpa using e))
      simp only [State.tick_ST, ne_eq, h, not_false_eq_true, if_true, BitVec.toNat_sub]
      have := s.ST.isLt
      simp; omega

/-- A fault just raised is read back as its code and information value (R210). -/
@[simp] theorem State.raise_faultCode (f : Fault) : (s.raise f).faultCode = f.code := rfl

@[simp] theorem State.raise_faultInfo (f : Fault) : (s.raise f).faultInfo = some f.info := rfl

/-- The codes of the sub-causes are 2 to 8, one each (R210). -/
theorem OutOfRange.code_range (k : OutOfRange) : 2 ≤ k.code ∧ k.code ≤ 8 := by cases k <;> decide

theorem OutOfRange.code_inj {k l : OutOfRange} (h : k.code = l.code) : k = l := by
  revert h; cases k <;> cases l <;> decide

/-- The codes of the causes are 1 to 8 (R210). -/
theorem Fault.code_range (f : Fault) : 1 ≤ f.code ∧ f.code ≤ 8 := by
  rcases f with w | ⟨k, a⟩
  · exact ⟨Nat.le_refl 1, by simp [Fault.code]⟩
  · have := k.code_range
    exact ⟨by simp only [Fault.code]; omega, this.2⟩

/-- The code and the information value say which cause it is: no two causes share both. -/
theorem Fault.eq_of_code_info {f g : Fault} (hc : f.code = g.code) (hi : f.info = g.info) : f = g := by
  rcases f with w | ⟨k, a⟩ <;> rcases g with v | ⟨l, b⟩ <;> simp only [Fault.code, Fault.info] at hc hi
  · rw [BitVec.eq_of_toNat_eq hi]
  · have := l.code_range; omega
  · have := k.code_range; omega
  · rw [OutOfRange.code_inj hc, hi]

/-- Code 0 is `NONE` and nothing else is (R210). -/
theorem State.faultCode_eq_zero : s.faultCode = 0 ↔ s.fault = none := by
  unfold State.faultCode
  cases h : s.fault with
  | none => simp
  | some f => have := f.code_range; simp; omega

/-- What `finishStep` makes of a next state: the tick and its tone, or neither after a fault. -/
theorem finishStep_next (t : State) :
    finishStep (.next t) = if t.fault = none then (.next t.tick, t.tickTone) else (.next t, false) := rfl

/-- Everything a Step can do (R91): nothing (faulted, halted), a fetch fault, a decode fault, or the decoded
instruction and then `finishStep`. -/
theorem runStep_cases (s : State) :
    (s.fault ≠ none ∧ runStep s = (.next s, false)) ∨
    (s.fault = none ∧ s.halted = true ∧ runStep s = (.next s, false)) ∨
    (s.fault = none ∧ s.halted = false ∧ 0xFFE < s.pc.toNat ∧
      runStep s = (.next (s.raise (.outOfRange .fetch s.pc.toNat)), false)) ∨
    (s.fault = none ∧ s.halted = false ∧ s.pc.toNat ≤ 0xFFE ∧ ∃ w, s.fetchWord = some w ∧
      ((∃ e, decode w = .error e ∧
          runStep s = (.next ((s.setOpcode w).raise (.unrecognizedInstruction w)), false)) ∨
       (∃ i, decode w = .ok i ∧ runStep s = finishStep (exec i (s.setOpcode w))))) := by
  unfold runStep
  by_cases hf : s.fault = none
  · by_cases hh : s.halted = true
    · exact .inr (.inl ⟨hf, hh, by simp [hf, hh]⟩)
    · rw [Bool.not_eq_true] at hh
      refine .inr (.inr ?_)
      by_cases hp : s.pc.toNat > 0xFFE
      · exact .inl ⟨hf, hh, hp, by simp [hf, hh, State.fetchWord, hp]⟩
      · refine .inr ⟨hf, hh, by omega, _, if_neg hp, ?_⟩
        simp only [hf, hh, State.fetchWord, hp, ne_eq, not_true_eq_false, if_false, Bool.false_eq_true,
          runWord]
        split
        · rename_i i hd; exact .inr ⟨i, hd, rfl⟩
        · rename_i e hd; exact .inl ⟨e, hd, rfl⟩
  · exact .inl ⟨hf, by simp [hf]⟩

end Sys2Proof.Machine
end

