-- ==== Sys2Proof/Laws/Exec.lean ====
section
/-! SUPPORT. What `exec` answers for the instructions that check something first: one equation per outcome. The
other 25 meanings are one equation each, true by unfolding. -/

namespace Sys2Proof.Machine

variable {s : State}

theorem exec_call_of_lt (nnn : Addr12) (h : s.sp.val < Config.stackDepth) :
    exec (.call nnn) s = .next (State.setPc
      { s with stack := s.stack.set s.sp.val (s.pc + 2), sp := ⟨s.sp.val + 1, by omega⟩ }
      (zextAddr nnn)) := by
  simp only [exec, execCall, State.push_of_lt h]

theorem exec_call_of_full (nnn : Addr12) (h : s.sp.val = Config.stackDepth) :
    exec (.call nnn) s = .next (s.raise (.outOfRange .stackOverflow s.pc.toNat)) := by
  simp only [exec, execCall, State.push_of_full h]

theorem exec_ret_of_pos (h : 0 < s.sp.val) :
    exec .ret s = .next (State.setPc { s with sp := ⟨s.sp.val - 1, by omega⟩ }
      s.stack[s.sp.val - 1]) := by
  simp only [exec, execRet, State.pop_of_pos h]

theorem exec_ret_of_zero (h : s.sp.val = 0) :
    exec .ret s = .next (s.raise (.outOfRange .stackUnderflow s.pc.toNat)) := by
  simp only [exec, execRet, State.pop_of_zero h]

theorem exec_skp_of_lt {x : RegId} (h : s.V[x].toNat < Config.nKeys) :
    exec (.skp x) s = .next (s.skipIf s.keypad[s.V[x].toNat]) := by
  simp only [exec, execSkp, State.readV, keyIndex_of_le h]
  rfl

theorem exec_skp_of_gt {x : RegId} (h : 15 < s.V[x].toNat) :
    exec (.skp x) s = .next (s.raise (.outOfRange .keypadIndex s.V[x].toNat)) := by
  simp only [exec, execSkp, State.readV, keyIndex_of_gt h]

theorem exec_sknp_of_lt {x : RegId} (h : s.V[x].toNat < Config.nKeys) :
    exec (.sknp x) s = .next (s.skipIf !s.keypad[s.V[x].toNat]) := by
  simp only [exec, execSknp, State.readV, keyIndex_of_le h]
  rfl

theorem exec_sknp_of_gt {x : RegId} (h : 15 < s.V[x].toNat) :
    exec (.sknp x) s = .next (s.raise (.outOfRange .keypadIndex s.V[x].toNat)) := by
  simp only [exec, execSknp, State.readV, keyIndex_of_gt h]

theorem exec_waitKey_of_some {x : RegId} {k : Fin Config.nKeys} (h : s.leastKey = some k) :
    exec (.waitKey x) s = .next (s.writeV x (keyCode k)).advance := by
  simp only [exec, execWaitKey, h]

theorem exec_waitKey_of_none {x : RegId} (h : s.leastKey = none) :
    exec (.waitKey x) s = .next (s.setHalted true) := by
  simp only [exec, execWaitKey, h]

/-- A range check that passes. -/
theorem State.checked_of_le {kind : OutOfRange} {k : Nat} {e : State} (h : s.I.toNat + k - 1 ≤ 0xFFF) :
    s.checked kind k e = e := by
  rcases State.checked_cases (s := s) kind k e with h' | h'
  · exact h'.2
  · omega

/-- A range check that fails. -/
theorem State.checked_of_gt {kind : OutOfRange} {k : Nat} {e : State} (h : 0xFFF < s.I.toNat + k - 1) :
    s.checked kind k e = s.raise (.outOfRange kind s.I.toNat) := by
  rcases State.checked_cases (s := s) kind k e with h' | h'
  · omega
  · exact h'.2

theorem exec_bcd_of_le {x : RegId} (h : s.I.toNat + 2 ≤ 0xFFF) :
    exec (.bcd x) s =
      .next (s.setMem (s.mem.writeBytes (s.effAddr 0) (bcdDigits (s.readV x)))).advance := by
  simp only [exec, execBcd]
  rw [State.checked_of_le (by omega)]

theorem exec_bcd_of_gt {x : RegId} (h : 0xFFF < s.I.toNat + 2) :
    exec (.bcd x) s = .next (s.raise (.outOfRange .memWrite s.I.toNat)) := by
  simp only [exec, execBcd]
  rw [State.checked_of_gt (by omega)]

theorem exec_dump_of_le {x : RegId} (h : s.I.toNat + x.val ≤ 0xFFF) :
    exec (.dump x) s = .next (s.setMem (s.mem.writeBytes (s.effAddr 0) (s.regsTo x))).advance := by
  simp only [exec, execDump]
  rw [State.checked_of_le (by omega)]

theorem exec_dump_of_gt {x : RegId} (h : 0xFFF < s.I.toNat + x.val) :
    exec (.dump x) s = .next (s.raise (.outOfRange .memWrite s.I.toNat)) := by
  simp only [exec, execDump]
  rw [State.checked_of_gt (by omega)]

theorem exec_load_of_le {x : RegId} (h : s.I.toNat + x.val ≤ 0xFFF) :
    exec (.load x) s = .next (s.loadRegs x).advance := by
  simp only [exec, execLoad]
  rw [State.checked_of_le (by omega)]

theorem exec_load_of_gt {x : RegId} (h : 0xFFF < s.I.toNat + x.val) :
    exec (.load x) s = .next (s.raise (.outOfRange .memRead s.I.toNat)) := by
  simp only [exec, execLoad]
  rw [State.checked_of_gt (by omega)]

theorem exec_drw_of_le {x y : RegId} {n : Nat} (h : n = 0 ∨ s.I.toNat + n - 1 ≤ 0xFFF) :
    exec (.drw x y n) s = .next (s.draw x y n) := by
  simp only [exec, execDrw]
  split
  · rfl
  · rw [State.checked_of_le (by omega)]

theorem exec_drw_of_gt {x y : RegId} {n : Nat} (h0 : 0 < n) (h : 0xFFF < s.I.toNat + n - 1) :
    exec (.drw x y n) s = .next (s.raise (.outOfRange .memRead s.I.toNat)) := by
  simp only [exec, execDrw]
  rw [if_neg (by omega), State.checked_of_gt h]

end Sys2Proof.Machine
end

