-- ==== Sys2Proof/Laws/Memory.lean ====
section
/-! SUPPORT. Memory: a read after a write, and that every operation keeps the canonical form. -/

namespace Sys2Proof.Machine

theorem Memory.wfFrom_cons {lo a : Nat} {v : Byte} {m : Memory} :
    Memory.wfFrom lo ((a, v) :: m) = true ↔
      lo ≤ a ∧ a < Config.memSize ∧ v ≠ Memory.unlisted a ∧ Memory.wfFrom (a + 1) m = true := by
  simp [Memory.wfFrom, and_assoc]

theorem Memory.wfFrom_mono {lo lo' : Nat} {m : Memory} (h : lo' ≤ lo)
    (hm : Memory.wfFrom lo m = true) : Memory.wfFrom lo' m = true := by
  cases m with
  | nil => rfl
  | cons c m => rw [Memory.wfFrom_cons] at hm ⊢; exact ⟨h.trans hm.1, hm.2⟩

/-- Below the first address of the canonical form nothing is listed. -/
theorem Memory.read_below {lo b : Nat} {m : Memory} (hm : Memory.wfFrom lo m = true) (hb : b < lo) :
    m.read b = Memory.unlisted b := by
  induction m generalizing lo with
  | nil => rfl
  | cons c m ih =>
    obtain ⟨h1, -, -, h4⟩ := Memory.wfFrom_cons.1 hm
    simp only [Memory.read]
    rw [if_neg (by omega)]
    exact ih h4 (by omega)

theorem Memory.read_cons {a b : Nat} {v : Byte} {m : Memory} (hm : Memory.wfFrom (a + 1) m = true) :
    (Memory.cons a v m).read b = if b = a then v else m.read b := by
  unfold Memory.cons
  split
  · rename_i h
    split
    · rename_i hb; subst hb; rw [Memory.read_below hm (by omega), h]
    · rfl
  · rfl

theorem Memory.wfFrom_cons_cell {lo a : Nat} {v : Byte} {m : Memory} (hlo : lo ≤ a)
    (ha : a < Config.memSize) (hm : Memory.wfFrom (a + 1) m = true) :
    Memory.wfFrom lo (Memory.cons a v m) = true := by
  unfold Memory.cons
  split
  · exact Memory.wfFrom_mono (by omega) hm
  · rename_i h; exact Memory.wfFrom_cons.2 ⟨hlo, ha, h, hm⟩

theorem Memory.wfFrom_write {lo a : Nat} {v : Byte} {m : Memory} (hm : Memory.wfFrom lo m = true)
    (hlo : lo ≤ a) (ha : a < Config.memSize) : Memory.wfFrom lo (m.write a v) = true := by
  induction m generalizing lo with
  | nil => exact Memory.wfFrom_cons_cell hlo ha rfl
  | cons c m ih =>
    obtain ⟨h1, h2, h3, h4⟩ := Memory.wfFrom_cons.1 hm
    simp only [Memory.write]
    split
    · exact Memory.wfFrom_cons_cell hlo ha (Memory.wfFrom_cons.2 ⟨by omega, h2, h3, h4⟩)
    · split
      · rename_i h; subst h; exact Memory.wfFrom_cons_cell hlo ha h4
      · exact Memory.wfFrom_cons.2 ⟨h1, h2, h3, ih h4 (by omega)⟩

theorem Memory.read_write_from {lo a b : Nat} {v : Byte} {m : Memory}
    (hm : Memory.wfFrom lo m = true) :
    (m.write a v).read b = if b = a then v else m.read b := by
  induction m generalizing lo with
  | nil => exact Memory.read_cons rfl
  | cons c m ih =>
    obtain ⟨h1, h2, h3, h4⟩ := Memory.wfFrom_cons.1 hm
    simp only [Memory.write]
    split
    · exact Memory.read_cons (Memory.wfFrom_cons.2 ⟨by omega, h2, h3, h4⟩)
    · split
      · rename_i h; subst h
        rw [Memory.read_cons h4]
        split <;> simp_all [Memory.read]
      · simp only [Memory.read, ih h4]
        by_cases hb : b = c.1
        · rw [if_pos hb, if_pos hb, if_neg (by omega)]
        · rw [if_neg hb, if_neg hb]

/-- A read after a write: the byte written at its address, every other byte as before. -/
theorem Memory.read_write {m : Memory} (hm : m.wf = true) (a b : Nat) (v : Byte) :
    (m.write a v).read b = if b = a then v else m.read b :=
  Memory.read_write_from hm

/-- A write inside memory keeps the canonical form. -/
theorem Memory.wf_write {m : Memory} (hm : m.wf = true) {a : Nat} (ha : a < Config.memSize) (v : Byte) :
    (m.write a v).wf = true :=
  Memory.wfFrom_write hm (Nat.zero_le a) ha

/-- A run of stores inside memory keeps the canonical form. -/
theorem Memory.wf_writeBytes {m : Memory} {a : Nat} {vs : List Byte} (hm : m.wf = true)
    (ha : a + vs.length ≤ Config.memSize) : (m.writeBytes a vs).wf = true := by
  induction vs generalizing m a with
  | nil => exact hm
  | cons v vs ih =>
    rw [List.length_cons] at ha
    exact ih (Memory.wf_write hm (by omega) v) (by omega)

/-- A read after a run of stores inside memory: byte `k` of the run at `a + k`, every other byte as
before. -/
theorem Memory.read_writeBytes {m : Memory} {a b : Nat} {vs : List Byte} (hm : m.wf = true)
    (ha : a + vs.length ≤ Config.memSize) :
    (m.writeBytes a vs).read b = if a ≤ b then vs.getD (b - a) (m.read b) else m.read b := by
  induction vs generalizing m a with
  | nil => simp [Memory.writeBytes]
  | cons v vs ih =>
    rw [List.length_cons] at ha
    rw [Memory.writeBytes, ih (Memory.wf_write hm (by omega) v) (by omega), Memory.read_write hm]
    rcases Nat.lt_trichotomy b a with h | h | h
    · rw [if_neg (by omega), if_neg (by omega), if_neg (by omega)]
    · subst h; rw [if_neg (by omega), if_pos rfl, if_pos (le_refl b)]; simp
    · obtain ⟨k, rfl⟩ := Nat.exists_eq_add_of_lt h
      rw [if_pos (by omega), if_neg (by omega), if_pos (by omega),
        show a + k + 1 - a = k + 1 by omega, show a + k + 1 - (a + 1) = k by omega]
      simp

/-- Memory at reset is in its canonical form. -/
theorem Memory.wf_nil : Memory.wf [] = true := rfl

end Sys2Proof.Machine
end

