-- ==== Sys2Proof/Laws/PerInstr.lean ====
section
/-! SUPPORT. Facts about every instruction as syntax, one lemma per constructor. The family `InRow` says that an
instruction's word is an instance of its row of the opcode map (spec/30_encoding.md R72, R81). -/

namespace Sys2Proof.Laws.InRow

/-- The word of an instruction matches its row of R75, and that row is in the map. -/
def Statement (i : Instr) : Prop := i.row ∈ opcodeMap ∧ encode i &&& i.row.2 = i.row.1

theorem encA_in {m : Word} (nnn : Addr12) (hm : m.extractLsb' 0 12 = 0) (h2 : m.extractLsb' 8 4 = 0#4)
    (h1 : m.extractLsb' 4 4 = 0#4) (h0 : m.extractLsb' 0 4 = 0#4) : encA m nnn &&& 0xF000 = m :=
  (and_F000 _ _ h2 h1 h0).2 (fields_encA nnn hm).1

theorem encRI_in {m : Word} (x : RegId) (nn : Byte) (hn : m.extractLsb' 0 8 = 0)
    (h2 : m.extractLsb' 8 4 = 0#4) (h1 : m.extractLsb' 4 4 = 0#4) (h0 : m.extractLsb' 0 4 = 0#4) :
    encRI m x nn &&& 0xF000 = m :=
  (and_F000 _ _ h2 h1 h0).2 (fields_encRI x nn h2 hn).1

theorem encRR_in {m : Word} (x y : RegId) (h2 : m.extractLsb' 8 4 = 0#4) (h1 : m.extractLsb' 4 4 = 0#4) :
    encRR m x y &&& 0xF00F = m :=
  (and_F00F _ _ h2 h1).2 ⟨(fields_encRR x y h2 h1).1, (fields_encRR x y h2 h1).2.2.2⟩

theorem encRRN_in {m : Word} (x y : RegId) (n : Nat) (h2 : m.extractLsb' 8 4 = 0#4)
    (h1 : m.extractLsb' 4 4 = 0#4) (h0 : m.extractLsb' 0 4 = 0#4) : encRRN m x y n &&& 0xF000 = m :=
  (and_F000 _ _ h2 h1 h0).2 (fields_encRRN x y n h2 h1 h0).1

theorem encR_in {m : Word} (x : RegId) (h2 : m.extractLsb' 8 4 = 0#4) : encR m x &&& 0xF0FF = m :=
  (and_F0FF _ _ h2).2 ⟨(fields_encR x h2).1, (fields_encR x h2).2.2⟩

theorem cls : Statement .cls := ⟨by decide, by decide⟩
theorem ret : Statement .ret := ⟨by decide, by decide⟩
theorem jp (nnn : Addr12) : Statement (.jp nnn) :=
  ⟨by simp [Instr.row, opcodeMap], encA_in nnn rfl rfl rfl rfl⟩
theorem call (nnn : Addr12) : Statement (.call nnn) :=
  ⟨by simp [Instr.row, opcodeMap], encA_in nnn rfl rfl rfl rfl⟩
theorem ldI (nnn : Addr12) : Statement (.ldI nnn) :=
  ⟨by simp [Instr.row, opcodeMap], encA_in nnn rfl rfl rfl rfl⟩
theorem jpV0 (nnn : Addr12) : Statement (.jpV0 nnn) :=
  ⟨by simp [Instr.row, opcodeMap], encA_in nnn rfl rfl rfl rfl⟩
theorem seByte (x : RegId) (nn : Byte) : Statement (.seByte x nn) :=
  ⟨by simp [Instr.row, opcodeMap], encRI_in x nn rfl rfl rfl rfl⟩
theorem sneByte (x : RegId) (nn : Byte) : Statement (.sneByte x nn) :=
  ⟨by simp [Instr.row, opcodeMap], encRI_in x nn rfl rfl rfl rfl⟩
theorem ldByte (x : RegId) (nn : Byte) : Statement (.ldByte x nn) :=
  ⟨by simp [Instr.row, opcodeMap], encRI_in x nn rfl rfl rfl rfl⟩
theorem addByte (x : RegId) (nn : Byte) : Statement (.addByte x nn) :=
  ⟨by simp [Instr.row, opcodeMap], encRI_in x nn rfl rfl rfl rfl⟩
theorem rnd (x : RegId) (nn : Byte) : Statement (.rnd x nn) :=
  ⟨by simp [Instr.row, opcodeMap], encRI_in x nn rfl rfl rfl rfl⟩
theorem seReg (x y : RegId) : Statement (.seReg x y) :=
  ⟨by simp [Instr.row, opcodeMap], encRR_in x y rfl rfl⟩
theorem ldReg (x y : RegId) : Statement (.ldReg x y) :=
  ⟨by simp [Instr.row, opcodeMap], encRR_in x y rfl rfl⟩
theorem orReg (x y : RegId) : Statement (.orReg x y) :=
  ⟨by simp [Instr.row, opcodeMap], encRR_in x y rfl rfl⟩
theorem andReg (x y : RegId) : Statement (.andReg x y) :=
  ⟨by simp [Instr.row, opcodeMap], encRR_in x y rfl rfl⟩
theorem xorReg (x y : RegId) : Statement (.xorReg x y) :=
  ⟨by simp [Instr.row, opcodeMap], encRR_in x y rfl rfl⟩
theorem addReg (x y : RegId) : Statement (.addReg x y) :=
  ⟨by simp [Instr.row, opcodeMap], encRR_in x y rfl rfl⟩
theorem subReg (x y : RegId) : Statement (.subReg x y) :=
  ⟨by simp [Instr.row, opcodeMap], encRR_in x y rfl rfl⟩
theorem shr (x y : RegId) : Statement (.shr x y) :=
  ⟨by simp [Instr.row, opcodeMap], encRR_in x y rfl rfl⟩
theorem subnReg (x y : RegId) : Statement (.subnReg x y) :=
  ⟨by simp [Instr.row, opcodeMap], encRR_in x y rfl rfl⟩
theorem shl (x y : RegId) : Statement (.shl x y) :=
  ⟨by simp [Instr.row, opcodeMap], encRR_in x y rfl rfl⟩
theorem sneReg (x y : RegId) : Statement (.sneReg x y) :=
  ⟨by simp [Instr.row, opcodeMap], encRR_in x y rfl rfl⟩
theorem drw (x y : RegId) (n : Nat) : Statement (.drw x y n) :=
  ⟨by simp [Instr.row, opcodeMap], encRRN_in x y n rfl rfl rfl⟩
theorem skp (x : RegId) : Statement (.skp x) :=
  ⟨by simp [Instr.row, opcodeMap], encR_in x rfl⟩
theorem sknp (x : RegId) : Statement (.sknp x) :=
  ⟨by simp [Instr.row, opcodeMap], encR_in x rfl⟩
theorem ldFromDT (x : RegId) : Statement (.ldFromDT x) :=
  ⟨by simp [Instr.row, opcodeMap], encR_in x rfl⟩
theorem waitKey (x : RegId) : Statement (.waitKey x) :=
  ⟨by simp [Instr.row, opcodeMap], encR_in x rfl⟩
theorem ldDT (x : RegId) : Statement (.ldDT x) :=
  ⟨by simp [Instr.row, opcodeMap], encR_in x rfl⟩
theorem ldST (x : RegId) : Statement (.ldST x) :=
  ⟨by simp [Instr.row, opcodeMap], encR_in x rfl⟩
theorem addI (x : RegId) : Statement (.addI x) :=
  ⟨by simp [Instr.row, opcodeMap], encR_in x rfl⟩
theorem ldF (x : RegId) : Statement (.ldF x) :=
  ⟨by simp [Instr.row, opcodeMap], encR_in x rfl⟩
theorem bcd (x : RegId) : Statement (.bcd x) :=
  ⟨by simp [Instr.row, opcodeMap], encR_in x rfl⟩
theorem dump (x : RegId) : Statement (.dump x) :=
  ⟨by simp [Instr.row, opcodeMap], encR_in x rfl⟩
theorem load (x : RegId) : Statement (.load x) :=
  ⟨by simp [Instr.row, opcodeMap], encR_in x rfl⟩

end Sys2Proof.Laws.InRow
end

