-- ==== Sys2Proof/Tests/Slice0.lean ====
section
/-! SUPPORT. Tests on fixed values: the well-formedness check, the decoder on words written out from the encoding
table (spec/30_encoding.md R75), vectors of spec/95_test_vectors.md, and for every obligation with hypotheses a
witness that meets them, at the boundary values of each clause. -/

namespace Sys2Proof.Tests

open Machine

/-- `decode` on each listed word gives the listed instruction. -/
def decodesAll (rows : List (Word × Instr)) : Bool :=
  rows.all fun p => match decode p.1 with
    | .ok i => decide (i = p.2)
    | .error _ => false

/-- `decode` refuses each listed word with its own name. -/
def refusesAll (words : List Word) : Bool :=
  words.all fun w => match decode w with
    | .ok _ => false
    | .error e => decide (e = .unrecognized w)

/-- The state after reset with word `w` at pc and some registers set. -/
def start (w : Nat) (regs : List (RegId × Byte)) : State :=
  regs.foldl (fun s p => s.writeV p.1 p.2) (State.reset.withFetchWord 16 w)

/-- One Step, and a check of the state it ends in. -/
def after (s : State) (check : State → Bool) : Bool :=
  match step s with
  | .next t => check t
  | .fault _ => false
  | .refused _ => false

/-! ## Well-formedness -/

/-- R71: `N` is four bits; a height of 16 is no instruction and is refused. -/
theorem test_wf_refuses_height : (Instr.drw 0 0 16).wf = false := by decide

theorem test_wf_accepts_height : (Instr.drw 0 0 15).wf = true := by decide

/-! ## Decoding: every constructor, the words written out from R75 -/

/-- Families 0 to 4: nibble 1 selects; `2ABC` is 0010 1010 1011 1100. -/
theorem test_decode_flow : decodesAll
    [(0x00E0, .cls), (0x00EE, .ret), (0x1ABC, .jp 0xABC), (0x2206, .call 0x206), (0x332A, .seByte 3 0x2A),
     (0x432A, .sneByte 3 0x2A), (0x5120, .seReg 1 2), (0x9120, .sneReg 1 2), (0xB1FE, .jpV0 0x1FE)] = true := by
  decide

/-- Families 6 and 7, and C. -/
theorem test_decode_immediate : decodesAll
    [(0x6005, .ldByte 0 5), (0x6FAB, .ldByte 15 0xAB), (0x7102, .addByte 1 2), (0xC30F, .rnd 3 0x0F)] = true := by
  decide

/-- Family 8: nibble 4 selects. -/
theorem test_decode_alu : decodesAll
    [(0x8120, .ldReg 1 2), (0x8121, .orReg 1 2), (0x8122, .andReg 1 2), (0x8123, .xorReg 1 2),
     (0x8014, .addReg 0 1), (0x8125, .subReg 1 2), (0x8126, .shr 1 2), (0x8127, .subnReg 1 2),
     (0x812E, .shl 1 2)] = true := by
  decide

/-- Families A and D; `D12F` is 1101 0001 0010 1111. -/
theorem test_decode_index_draw : decodesAll
    [(0xA2F0, .ldI 0x2F0), (0xD12F, .drw 1 2 15), (0xD120, .drw 1 2 0)] = true := by
  decide

/-- Family E: the low byte selects. -/
theorem test_decode_keys : decodesAll [(0xE29E, .skp 2), (0xE2A1, .sknp 2)] = true := by decide

/-- Family F: the low byte selects. -/
theorem test_decode_misc : decodesAll
    [(0xF107, .ldFromDT 1), (0xF30A, .waitKey 3), (0xF015, .ldDT 0), (0xF018, .ldST 0), (0xF21E, .addI 2),
     (0xF429, .ldF 4), (0xF033, .bcd 0), (0xF255, .dump 2), (0xF265, .load 2)] = true := by
  decide

/-- R76, 95_test_vectors.md 2.6: unassigned words of families 0, 5, 8, 9, E and F are refused. -/
theorem test_decode_refuses : refusesAll
    [0x0000, 0x0200, 0x00E1, 0x00FF, 0x5121, 0x8128, 0x812F, 0x9121, 0xE29F, 0xE100, 0xF1FF, 0xFFFF,
     0xF000] = true := by
  decide

/-- One byte is no instruction (R70); two are, the first the high byte (R54), and the rest is handed back. -/
theorem test_decode_bytes :
    decodeBytes [0x60] = .error .truncated ∧ decodeBytes [0x60, 0x05, 0x61] = .ok (.ldByte 0 5, [0x61]) := by
  decide

theorem test_table_word : decodeTableWord 16 0xD125 = some (.drw 1 2 5) := by decide

/-! ## Vectors of 95_test_vectors.md, one Step each -/

/-- S1, first Step. -/
theorem test_load_immediate : after (start 0x6005 []) (fun t =>
    decide (t.V[(0 : RegId)] = 5 ∧ t.pc = 0x202 ∧ t.currentOpcode = 0x6005)) = true := by decide

/-- F4: a call from 0x200 pushes 0x202. -/
theorem test_call : after (start 0x2206 []) (fun t =>
    decide (t.stack[(0 : Fin 16)] = 0x202 ∧ t.sp = 1 ∧ t.pc = 0x206)) = true := by decide

/-- F8: a return on an empty stack. -/
theorem test_ret_empty : after (start 0x00EE []) (fun t =>
    decide (t.fault = some (.outOfRange .stackUnderflow 0x200) ∧ t.pc = 0x200)) = true := by decide

/-- F10: `JP V0` is not masked to 12 bits. -/
theorem test_jpV0_no_mask : after (start 0xBFFF [(0, 0xFF)]) (fun t => decide (t.pc = 0x10FE)) = true := by
  decide

/-- A20: with `X = F` the flag wins over the result. -/
theorem test_add_flag_wins : after (start 0x8F14 [(15, 0xF0), (1, 0x20)]) (fun t =>
    decide (t.V[vF] = 1)) = true := by decide

/-- A24: a borrow gives VF = 0. -/
theorem test_sub_borrow : after (start 0x8125 [(1, 3), (2, 5), (15, 1)]) (fun t =>
    decide (t.V[(1 : RegId)] = 0xFE ∧ t.V[vF] = 0)) = true := by decide

/-- A31: the reverse subtract, the operands the other way round. -/
theorem test_subn_borrow : after (start 0x8127 [(1, 5), (2, 3), (15, 1)]) (fun t =>
    decide (t.V[(1 : RegId)] = 0xFE ∧ t.V[vF] = 0)) = true := by decide

/-- A36: the shift takes Vx, not Vy. -/
theorem test_shr_ignores_y : after (start 0x8126 [(1, 4), (2, 0xFF), (15, 1)]) (fun t =>
    decide (t.V[(1 : RegId)] = 2 ∧ t.V[(2 : RegId)] = 0xFF ∧ t.V[vF] = 0)) = true := by decide

/-- A43: VF is 1, not the mask 0x80. -/
theorem test_shl_bit7 : after (start 0x810E [(1, 0xFF)]) (fun t =>
    decide (t.V[(1 : RegId)] = 0xFE ∧ t.V[vF] = 1)) = true := by decide

/-- A4: no carry out of the immediate add, VF itself the destination. -/
theorem test_addByte_vF : after (start 0x7F01 [(15, 0xFF)]) (fun t => decide (t.V[vF] = 0)) = true := by decide

/-- A47: a mask of 0 gives 0, whatever the random byte. -/
theorem test_rnd_mask_zero (b : Byte) : b &&& (0 : Byte) = 0 := BitVec.and_zero

/-- M5: `I` wraps at 16 bits. -/
theorem test_addI_wraps : after ((start 0xF21E [(2, 1)]).setI 0xFFFF) (fun t => decide (t.I = 0)) = true := by
  decide

/-- M10: the glyph number is not masked (D13). -/
theorem test_ldF_no_mask : after (start 0xF429 [(4, 0x10)]) (fun t => decide (t.I = 0x50)) = true := by decide

/-- M12: the digits of 254. -/
theorem test_bcd : after ((start 0xF033 [(0, 0xFE)]).setI 0x300) (fun t =>
    decide (t.mem.readBytes 0x2FF 5 = [0, 2, 5, 4, 0])) = true := by decide

/-- M17: a range that passes 0xFFF. -/
theorem test_bcd_range : after ((start 0xF033 [(0, 7)]).setI 0xFFE) (fun t =>
    decide (t.fault = some (.outOfRange .memWrite 0xFFE) ∧ t.mem.readBytes 0xFFE 2 = [0, 0])) = true := by decide

/-- M19: three bytes, `I` kept. -/
theorem test_dump : after ((start 0xF255 [(0, 0x11), (1, 0x22), (2, 0x33), (3, 0x44)]).setI 0x400) (fun t =>
    decide (t.mem.readBytes 0x400 4 = [0x11, 0x22, 0x33, 0] ∧ t.I = 0x400)) = true := by decide

/-- M26: the font's glyph 1. -/
theorem test_load_font : after ((start 0xF065 []).setI 5) (fun t => decide (t.V[(0 : RegId)] = 0x20)) = true := by
  decide

/-- The state of vector G2: a sprite of two rows at (62, 30). -/
def startG2 : State :=
  let s := (start 0xD122 [(1, 0xFE), (2, 0x3E)]).setI 0x300
  s.setMem (s.mem.writeBytes 0x300 [0xF0, 0x90])

/-- G2: clipped at the right edge. -/
theorem test_draw_clips : after startG2 (fun t =>
    t.fb.pixel 62 30 && t.fb.pixel 63 30 && t.fb.pixel 62 31 && !t.fb.pixel 0 30 && !t.fb.pixel 63 31 &&
    decide (t.V[vF] = 0)) = true := by decide

/-- G3: drawn a second time, the pixels go off and VF is 1. -/
theorem test_draw_collides :
    after (startG2.setFb (((Framebuffer.blank.xorPixel 62 30 true).xorPixel 63 30 true).xorPixel 62 31 true))
      (fun t => !t.fb.pixel 62 30 && !t.fb.pixel 63 30 && !t.fb.pixel 62 31 && decide (t.V[vF] = 1)) = true := by
  decide

/-- K4: a key code above 15 is not masked. -/
theorem test_skp_no_mask : after ((start 0xE29E [(2, 0x17)]).setKey 7 true) (fun t =>
    decide (t.fault = some (.outOfRange .keypadIndex 0x17) ∧ t.pc = 0x200)) = true := by decide

/-- K9: the halting Step ticks. -/
theorem test_wait_halts : after (((start 0xF30A []).setDT 3).setST 1) (fun t =>
    decide (t.halted = true ∧ t.DT = 2 ∧ t.ST = 0 ∧ t.pc = 0x200)) = true := by decide

/-- K10: the least key. -/
theorem test_wait_least : after (((start 0xF30A []).setKey 3 true).setKey 10 true) (fun t =>
    decide (t.V[(3 : RegId)] = 3 ∧ t.pc = 0x202 ∧ t.halted = false)) = true := by decide

/-- K16: a timer ticks in the Step that writes it. -/
theorem test_ldDT_ticks : after (start 0xF015 [(0, 3)]) (fun t => decide (t.DT = 2 ∧ t.pc = 0x202)) = true := by
  decide

/-- K21: the tone of the Step in which `ST` goes from 1 to 0. -/
theorem test_ldST_tone :
    after (start 0xF018 [(0, 1)]) (fun t => decide (t.ST = 0)) = true ∧
    stepTone (start 0xF018 [(0, 1)]) = true := by decide

/-- S3: an unassigned word. -/
theorem test_unassigned : after (start 0xFFFF []) (fun t =>
    decide (t.fault = some (.unrecognizedInstruction 0xFFFF) ∧ t.pc = 0x200 ∧ t.currentOpcode = 0xFFFF)) =
    true := by decide

/-- R210: the codes of the table, row by row. -/
theorem test_fault_codes :
    State.reset.faultCode = 0 ∧ State.reset.faultInfo = none ∧
    (Fault.unrecognizedInstruction 0xFFFF).code = 1 ∧ (Fault.unrecognizedInstruction 0xFFFF).info = 0xFFFF ∧
    [OutOfRange.fetch, .memRead, .memWrite, .stackOverflow, .stackUnderflow, .keypadIndex, .romLoad].map
      OutOfRange.code = [2, 3, 4, 5, 6, 7, 8] := by decide

/-- M17: the register of a faulted machine as code and information value. -/
theorem test_fault_register : after ((start 0xF033 [(0, 7)]).setI 0xFFE) (fun t =>
    decide (t.faultCode = 4 ∧ t.faultInfo = some 0xFFE)) = true := by decide

/-- R241: with no ROM loaded the first Step fetches 0x0000 and faults. -/
theorem test_reset_step : after State.reset (fun t =>
    decide (t.fault = some (.unrecognizedInstruction 0))) = true := by decide

/-! ## Witnesses: the hypotheses of the obligations are met, at their boundaries -/

/-- CallPushesReturnAddress, CallThenReturnComesBack, at the deepest call that succeeds (F5). -/
theorem witness_call_deepest : ({ State.reset with sp := 15 } : State).sp.val < 16 := by decide

/-- ReturnPopsAddress, on a stack of one address (F7). -/
theorem witness_return_last : 0 < ({ State.reset with sp := 1 } : State).sp.val := by decide

/-- StackLimitsFault, both clauses (F6, F8). -/
theorem witness_stack_limits :
    ({ State.reset with sp := 16 } : State).sp.val = 16 ∧ State.reset.sp.val = 0 := by decide

/-- SkipIfEqualImmediate, SkipOnRegisters: both conditions (F12, F13). -/
theorem witness_skip_conditions :
    (State.reset.writeV 3 0x2A).V[(3 : RegId)] = 0x2A ∧ (State.reset.writeV 3 0x2A).V[(3 : RegId)] ≠ 0x2B ∧
    (State.reset.writeV 3 0x2A).V[(3 : RegId)] ≠ (State.reset.writeV 3 0x2A).V[(4 : RegId)] := by decide

/-- JumpSetsPc, SkipIfEqualImmediate, LoadImmediateSetsRegister, AddSetsCarry: a word of each family. -/
theorem witness_families :
    fieldOP 0x1FFF = 1 ∧ fieldOP 0x332A = 3 ∧ fieldOP 0x6FAB = 6 ∧ fieldOP 0x8F14 = 8 ∧ fieldN 0x8F14 = 4 := by
  decide

/-- AddSetsCarry, SubtractSetsNotBorrow, ReverseSubtractSetsNotBorrow and the shifts: a destination that is
not VF. -/
theorem witness_destination_not_vF : (14 : RegId) ≠ vF := by decide

/-- LogicIsBitwise, RandomByteUnderMask: the highest bit of a byte. -/
theorem witness_bit : 7 < 8 := by decide

/-- BcdStoresDigits, the last range inside memory (M16). -/
theorem witness_bcd : (State.reset.setI 0xFFD).mem.wf = true ∧ (State.reset.setI 0xFFD).I.toNat + 2 ≤ 0xFFF := by
  decide

/-- DumpStoresRegisters, LoadReadsRegisters, DumpThenLoadRestores: all 16 registers at the last range inside
memory (M23), with a register at most `x`; and one register, with one above it. -/
theorem witness_dump_load :
    (State.reset.setI 0xFF0).mem.wf = true ∧ (State.reset.setI 0xFF0).I.toNat + (15 : RegId).val ≤ 0xFFF ∧
    (15 : RegId) ≤ 15 ∧ (State.reset.setI 0xFFF).I.toNat + (0 : RegId).val ≤ 0xFFF ∧ (0 : RegId) < 1 := by decide

/-- MemoryRangeFaults: the first range past 0xFFF of each of the four clauses (M17, M24, M27, G8). -/
theorem witness_range_faults :
    0xFFF < (State.reset.setI 0xFFE).I.toNat + 2 ∧ 0xFFF < (State.reset.setI 0xFF1).I.toNat + (15 : RegId).val ∧
    0xFFF < (State.reset.setI 0xFFF).I.toNat + (1 : RegId).val ∧
    (0 < 2 ∧ 0xFFF < (State.reset.setI 0xFFF).I.toNat + 2 - 1) := by decide

/-- DumpThenLoadRestores, the state between dump and load: the dump's own result. -/
theorem witness_dump_then_load (t : State) :
    t.I = t.I ∧ ∀ k, k ≤ (15 : RegId).val → t.mem.read (t.I.toNat + k) = t.mem.read (t.I.toNat + k) :=
  ⟨rfl, fun _ _ => rfl⟩

/-- StoredBytesAreFetched: registers 0 and 1 of a dump of two, fetched from where they were stored. -/
theorem witness_stored_fetched :
    (0 < (1 : RegId).val ∧ (State.reset.setI 0x300).mem.wf = true ∧
      (State.reset.setI 0x300).I.toNat + (1 : RegId).val ≤ 0xFFF) ∧
    ∀ t : State, (t.setPc 0x300).mem = t.mem ∧
      (t.setPc 0x300).pc.toNat = (State.reset.setI 0x300).I.toNat + 0 :=
  ⟨by decide, fun _ => ⟨rfl, rfl⟩⟩

/-- DrawXorsSprite: no rows at any `I` (G7), and the last range inside memory (G9, G11). -/
theorem witness_draw :
    (0 = 0 ∨ (State.reset.setI 0xFFFF).I.toNat + 0 - 1 ≤ 0xFFF) ∧
    (1 = 0 ∨ (State.reset.setI 0xFFF).I.toNat + 1 - 1 ≤ 0xFFF) ∧
    (15 = 0 ∨ (State.reset.setI 0xFF1).I.toNat + 15 - 1 ≤ 0xFFF) := by decide

/-- DrawXorsSprite: a sprite bit on a pixel that is on collides, a blank screen does not. -/
theorem witness_collision :
    (startG2.setFb (Framebuffer.blank.xorPixel 63 30 true)).spriteCollides 0xFE 0x3E 2 ∧
    ¬State.reset.spriteCollides 0xFE 0x3E 2 :=
  ⟨⟨63, 30, by decide, by decide, by decide, by decide⟩, fun ⟨px, py, _, _, _, h⟩ => by
    rw [show State.reset.fb.pixel px py = false from Framebuffer.pixel_blank px py] at h
    exact Bool.noConfusion h⟩

/-- DrawTwiceRestoresScreen: two coordinate registers that are not VF, a sprite in memory, and a first draw that
reports no collision. -/
theorem witness_draw_twice :
    (1 : RegId) ≠ vF ∧ (2 : RegId) ≠ vF ∧ (2 = 0 ∨ startG2.I.toNat + 2 - 1 ≤ 0xFFF) ∧
    (startG2.draw 1 2 2).V[vF] = 0 := by decide

/-- SkipOnKey, the greatest key code, the key down and up (K1, K2). -/
theorem witness_key_code (b : Bool) :
    ((State.reset.writeV 2 15).setKey 15 b).V[(2 : RegId)].toNat < 16 ∧
    ((State.reset.writeV 2 15).setKey 15 b).keypad[15] = b := by revert b; decide

/-- KeyCodeAbove15Faults, the least such code (K3). -/
theorem witness_key_code_16 :
    15 < (State.reset.writeV 2 16).V[(2 : RegId)].toNat ∧ Instr.sknp 2 ∈ [Instr.skp 2, Instr.sknp 2] := by decide

/-- KeyWaitTakesLeastKey: keys 0 and 15, each the least of those down (K11, K12). -/
theorem witness_least_key :
    ((State.reset.setKey 0 true).keypad[(0 : Fin 16)] = true ∧
      ∀ j : Fin 16, j < 0 → (State.reset.setKey 0 true).keypad[j] = false) ∧
    ((State.reset.setKey 15 true).keypad[(15 : Fin 16)] = true ∧
      ∀ j : Fin 16, j < 15 → (State.reset.setKey 15 true).keypad[j] = false) := by decide

/-- KeyWaitHalts: all keys up (K8). -/
theorem witness_no_key : ∀ k : Fin 16, State.reset.keypad[k] = false := by decide

/-- StepRunsDecodedInstruction: a running state whose bytes at pc, the last two of memory, decode. -/
theorem witness_step :
    let s := (State.reset.setPc 0xFFE).withFetchWord 16 0x6005
    s.running ∧ s.pc.toNat ≤ 0xFFE ∧ (Instr.ldByte 0 5).wf = true ∧
      decodeBytes [s.mem.read s.pc.toNat, s.mem.read (s.pc.toNat + 1)] = .ok (.ldByte 0 5, []) ∧
      0x6005 = combine (s.mem.read (s.pc.toNat + 1)) (s.mem.read s.pc.toNat) := by
  refine ⟨⟨?_, ?_⟩, ?_, ?_, ?_, ?_⟩ <;> decide

/-- StepTicksOnce, first part: an instruction that completes. -/
theorem witness_tick :
    (start 0x1200 []).running ∧ (start 0x1200 []).fetchWord = some 0x1200 ∧
    decode 0x1200 = .ok (.jp 0x200) ∧
    exec (.jp 0x200) { start 0x1200 [] with currentOpcode := 0x1200 } =
      .next { start 0x1200 [] with currentOpcode := 0x1200 } ∧
    (start 0x1200 []).fault = none :=
  ⟨⟨rfl, rfl⟩, by decide, by decide, rfl, rfl⟩

/-- StepTicksOnce, second part: a faulted state, a halted state, and a Step that raises. -/
theorem witness_no_tick :
    (State.reset.raise (.unrecognizedInstruction 0)).fault ≠ none ∧ (State.reset.setHalted true).halted = true ∧
    after State.reset (fun t => decide (t.fault ≠ none)) = true := by decide

/-- FaultedStateIsFrozen: a recorded fault. -/
theorem witness_faulted : (State.reset.raise (.outOfRange .fetch 0xFFF)).fault ≠ none := by decide

/-- FetchBeyondMemoryFaults: the first pc whose word passes the end of memory (D18). -/
theorem witness_fetch_beyond : (State.reset.setPc 0xFFF).running ∧ 0xFFE < (State.reset.setPc 0xFFF).pc.toNat :=
  ⟨⟨rfl, rfl⟩, by decide⟩

/-- UnrecognizedWordFaults: the word 0xFFFF (S3). -/
theorem witness_unrecognized :
    (start 0xFFFF []).running ∧ (start 0xFFFF []).fetchWord = some 0xFFFF ∧
    ∀ r ∈ opcodeMap, (0xFFFF : Word) &&& r.2 ≠ r.1 := by
  refine ⟨⟨rfl, rfl⟩, by decide, ?_⟩
  have h : (opcodeMap.all fun r => decide ((0xFFFF : Word) &&& r.2 ≠ r.1)) = true := by decide
  exact fun r hr => of_decide_eq_true (List.all_eq_true.1 h r hr)

/-- StepFaultsExactlyOutOfBounds, FaultingInstructionWritesNothing, the second parts of KeyEventSetsSlot and
LoadRomCopiesImage: the reset state runs without a fault. -/
theorem witness_running : State.reset.running ∧ State.reset.fault = none := ⟨⟨rfl, rfl⟩, rfl⟩

/-- FaultingInstructionWritesNothing: an instruction that does fault. -/
theorem witness_faulting :
    exec .ret State.reset = .next (State.reset.raise (.outOfRange .stackUnderflow 0x200)) ∧
    (State.reset.raise (.outOfRange .stackUnderflow 0x200)).fault ≠ none :=
  ⟨rfl, by decide⟩

/-- FlagConventionOnVF: instructions that write no VF, one that writes registers among them. -/
theorem witness_no_vF : vF ∉ (Instr.load 14).destRegs ∧ vF ∉ Instr.cls.destRegs := by decide

/-- OnlyRandomReadsTheDraw: an instruction other than `RND`. -/
theorem witness_not_rnd : ∀ (x : RegId) (nn : Byte), Instr.cls ≠ .rnd x nn := by
  intro x nn h; exact Instr.noConfusion h

/-- TimerTicksInItsOwnStep: a fetched `LD DT, V0` and a fetched `LD ST, V0`. -/
theorem witness_timers :
    (start 0xF015 []).running ∧ (start 0xF015 []).fetchWord = some 0xF015 ∧ decode 0xF015 = .ok (.ldDT 0) ∧
    (start 0xF018 []).running ∧ (start 0xF018 []).fetchWord = some 0xF018 ∧ decode 0xF018 = .ok (.ldST 0) := by
  refine ⟨⟨?_, ?_⟩, ?_, ?_, ⟨?_, ?_⟩, ?_, ?_⟩ <;> decide

/-- JumpToSelfIdles: `1200` at 0x200 (F3). -/
theorem witness_self_jump :
    (start 0x1200 []).running ∧ (start 0x1200 []).fetchWord = some 0x1200 ∧ decode 0x1200 = .ok (.jp 0x200) ∧
    (0x200 : Addr12).toNat = (start 0x1200 []).pc.toNat := by
  refine ⟨⟨?_, ?_⟩, ?_, ?_, ?_⟩ <;> decide

/-- The state a Step of `LD V3, K` with all keys up ends in (K8). -/
def waiting : State := { start 0xF30A [] with halted := true, currentOpcode := 0xF30A }

/-- StepTicksOnce, first part: the halting Step, which completes in the halted state without a fault (D14, K9). -/
theorem witness_tick_halting :
    (start 0xF30A []).running ∧ (start 0xF30A []).fetchWord = some 0xF30A ∧
    decode 0xF30A = .ok (.waitKey 3) ∧
    exec (.waitKey 3) { start 0xF30A [] with currentOpcode := 0xF30A } = .next waiting ∧
    waiting.fault = none ∧ waiting.halted = true :=
  ⟨⟨rfl, rfl⟩, by decide, by decide, rfl, rfl, rfl⟩

/-- HaltedStateIsTheKeyWait: a Step that enters the halted state. -/
theorem witness_enters_halt :
    (start 0xF30A []).running ∧ (start 0xF30A []).fetchWord = some 0xF30A ∧
    decode 0xF30A = .ok (.waitKey 3) ∧ (∀ k : Fin 16, (start 0xF30A []).keypad[k] = false) ∧
    step (start 0xF30A []) = .next waiting ∧ (start 0xF30A []).halted = false ∧ waiting.halted = true := by
  refine ⟨⟨?_, ?_⟩, ?_, ?_, ?_, rfl, ?_, ?_⟩ <;> decide

/-- HaltedStateIsTheKeyWait: the two ways out of it. -/
theorem witness_leaves_halt :
    waiting.halted = true ∧ waiting.fault = none ∧ (keyEvent 15 false waiting).halted = false ∧
    (resetMachine waiting).halted = false := by decide

/-- KeyWaitResumes: the waiting state, its word fetched again. -/
theorem witness_resumes :
    waiting.fault = none ∧ waiting.halted = true ∧ (∀ j : Fin 16, waiting.keypad[j] = false) ∧
    waiting.fetchWord = some 0xF30A ∧ decode 0xF30A = .ok (.waitKey 3) := by decide

/-- KeyEventSetsSlot: the least key that is ignored. -/
theorem witness_key_ignored : 15 < 16 := by decide

/-- LoadRomCopiesImage: the longest image that fits, and the shortest that does not (D23). -/
theorem witness_rom_lengths (b : Byte) :
    State.reset.fault = none ∧ State.reset.mem.wf = true ∧ (List.replicate 3584 b).length ≤ 3584 ∧
    3584 < (List.replicate 3585 b).length := by
  refine ⟨rfl, rfl, ?_, ?_⟩ <;> rw [List.length_replicate]; decide

/-- EntryPointIsFixed: the longest image, and the empty one. -/
theorem witness_entry (b : Byte) :
    (List.replicate 3584 b).length ≤ 3584 ∧ ([] : List Byte).length ≤ 3584 := by
  rw [List.length_replicate]; decide

/-- ResetLeavesResetValues, ReadFramebufferExports, ClearScreenBlanks: the last font byte, the first and the last
byte above it, the last pixel. -/
theorem witness_ranges : 79 < 80 ∧ 80 ≤ 80 ∧ 80 ≤ 0xFFF ∧ 63 < 64 ∧ 31 < 32 := by decide

/-- DecodeFollowsOpcodeMap, EncodeOfDecode: a word that decodes and one that does not. -/
theorem witness_decodes :
    decode 0xD12F = .ok (.drw 1 2 15) ∧ ((0xD000, 0xF000) : Word × Word) ∈ opcodeMap ∧
    (0xD12F : Word) &&& 0xF000 = 0xD000 := by decide

/-- DecodeOfEncode: the greatest height. -/
theorem witness_encode : (Instr.drw 15 15 15).wf = true := by decide

/-- StepKeepsInvariant, TransactionsKeepInvariant: a halted state with a return address on the stack and a byte
in memory that meets the invariant. -/
theorem witness_inv : ({ waiting with stack := waiting.stack.set 0 0x1000, sp := 1 } : State).Inv where
  memWf := by decide
  pcBound := by decide
  stackBound := by decide
  haltedOnWait := fun _ => ⟨by decide, 3, by decide⟩

end Sys2Proof.Tests
end

/-! PROOF. The key wait (spec/40_sequencer.md R97): what each transaction does to `halted`, and the halted
state as a whole. -/

namespace Sys2Proof.Machine

section HaltedFlag

variable {s t : State}

/-! ## `halted` under the instructions -/

/-- A range-checked effect that keeps `halted` keeps it on both outcomes of the check. -/
theorem State.checked_halted {kind : OutOfRange} {k : Nat} {e : State} (he : e.halted = s.halted) :
    (s.checked kind k e).halted = s.halted := by
  rcases State.checked_cases (s := s) kind k e with ⟨_, h⟩ | ⟨_, h⟩ <;> rw [h]
  · exact he
  · rfl

theorem State.push_halted {a : Word} (h : s.push a = some t) : t.halted = s.halted := by
  unfold State.push at h
  split at h <;> cases h
  rfl

theorem State.pop_halted {a : Word} (h : s.pop = some (a, t)) : t.halted = s.halted := by
  unfold State.pop at h
  split at h <;> cases h
  rfl

/-- Every instruction but `LD Vx, K` keeps `halted`. -/
theorem exec_keeps_halted {i : Instr} (hi : ∀ x, i ≠ .waitKey x) (h : exec i s = .next t) :
    t.halted = s.halted := by
  cases i
  case call nnn =>
    simp only [exec, execCall] at h
    split at h <;> cases h
    · next u hp => rw [State.setPc_halted, State.push_halted hp]
    · rfl
  case ret =>
    simp only [exec, execRet] at h
    split at h <;> cases h
    · next a u hp => rw [State.setPc_halted, State.pop_halted hp]
    · rfl
  case skp x | sknp x =>
    simp only [exec, execSkp, execSknp] at h
    split at h <;> cases h <;> rfl
  case waitKey x => exact absurd rfl (hi x)
  case drw x y n =>
    simp only [exec, execDrw] at h
    cases h
    split
    · rfl
    · exact State.checked_halted rfl
  case bcd x | dump x | load x =>
    cases h
    exact State.checked_halted rfl
  -- The other 25 answer the next state outright, and none of their writes is to `halted`.
  all_goals cases h; rfl

/-- `LD Vx, K` keeps `halted` when a key is down (R192), so an instruction sets it only as the wait. -/
theorem exec_enters_halt {i : Instr} (h : exec i s = .next t) (hs : s.halted = false)
    (ht : t.halted = true) : ∃ x, i = .waitKey x ∧ s.leastKey = none := by
  by_cases hi : ∃ x, i = .waitKey x
  · obtain ⟨x, rfl⟩ := hi
    refine ⟨x, rfl, ?_⟩
    cases hk : s.leastKey with
    | none => rfl
    | some k =>
      rw [exec_waitKey_of_some hk] at h
      cases h
      simp [hs] at ht
  · push Not at hi
    simp [exec_keeps_halted hi h, hs] at ht

/-! ## `halted` under a Step -/

/-- The tick at the end of a Step keeps `halted`. -/
theorem finishStep_halted {r : Result} (h : (finishStep r).1 = .next t) :
    ∃ u, r = .next u ∧ t.halted = u.halted := by
  cases r with
  | next u =>
    rw [finishStep_next] at h
    refine ⟨u, rfl, ?_⟩
    split at h <;> cases h <;> rfl
  | fault r => cases h
  | refused r => cases h

/-- A Step of a halted machine does nothing and sounds nothing, faulted or not. -/
theorem step_of_halted (h : s.halted = true) : step s = .next s ∧ stepTone s = false := by
  simp [step, stepTone, runStep, h]

/-- A Step of a running machine whose word decodes executes it (R91 to R94). -/
theorem runStep_of_decode {w : Word} {i : Instr} (hr : s.running) (hw : s.fetchWord = some w)
    (hd : decode w = .ok i) : runStep s = finishStep (exec i (s.setOpcode w)) := by
  obtain ⟨hf, hh⟩ := hr
  simp [runStep, runWord, hf, hh, hw, hd]

/-- With all keys up, a Step that executes `LD Vx, K` ends halted, pc held. -/
theorem step_waitKey_no_key {w : Word} {x : RegId} (hr : s.running) (hw : s.fetchWord = some w)
    (hd : decode w = .ok (.waitKey x)) (hk : ∀ k : Fin 16, s.keypad[k] = false) :
    step s = .next ((s.setOpcode w).setHalted true).tick := by
  have hl : (s.setOpcode w).leastKey = none := State.leastKey_none.2 hk
  have hf : ((s.setOpcode w).setHalted true).fault = none := hr.1
  rw [step, runStep_of_decode hr hw hd, exec_waitKey_of_none hl, finishStep_next, if_pos hf]

/-- A Step makes a machine halted only by executing `LD Vx, K` with all keys up. -/
theorem step_enters_halt (h : step s = .next t) (hs : s.halted = false) (ht : t.halted = true) :
    ∃ w x, s.fetchWord = some w ∧ decode w = .ok (.waitKey x) ∧ ∀ k : Fin 16, s.keypad[k] = false := by
  unfold step at h
  rcases runStep_cases s with ⟨_, e⟩ | ⟨_, _, e⟩ | ⟨_, _, _, e⟩ | ⟨_, _, _, w, hw, ⟨_, _, e⟩ | ⟨i, hd, e⟩⟩ <;>
    rw [e] at h
  case inr.inr.inr.inr =>  -- the decoded instruction
    obtain ⟨u, hu, htu⟩ := finishStep_halted h
    obtain ⟨x, rfl, hk⟩ := exec_enters_halt hu hs (htu ▸ ht)
    exact ⟨w, x, hw, hd, State.leastKey_none.1 hk⟩
  all_goals  -- the Steps that execute nothing keep `halted`
    cases h
    simp [hs] at ht

/-! ## `halted` under the other transactions -/

@[simp] theorem loadROM_halted (bytes : List Byte) : (loadROM bytes s).halted = s.halted := by
  unfold loadROM
  split
  · rfl
  · split <;> rfl

/-- A KeyEvent clears `halted` when it is a key-down of a key 0 to 15 and the machine is not faulted, and keeps
it otherwise (R99). -/
theorem keyEvent_halted (key : Nat) (up : Bool) :
    (keyEvent key up s).halted =
      if s.fault = none ∧ key < 16 ∧ up = false then false else s.halted := by
  unfold keyEvent
  split
  · next hf => rw [if_neg fun hc => hf hc.1]
  · next hf =>
    split
    · next hk => cases up <;> simp [not_not.1 hf, hk]
    · next hk => rw [if_neg fun hc => hk hc.2.1]

theorem keyEvent_keypad_self (k : Fin 16) (up : Bool) (hf : s.fault = none) :
    (keyEvent k.val up s).keypad[k] = !up := by
  cases up <;> simp [keyEvent, hf, State.setKey, State.setHalted]

/-- Only a Step makes a machine halted. -/
theorem transact_enters_halt {tr : Transaction} (h : (transact tr s).1 = .next t) (hs : s.halted = false)
    (ht : t.halted = true) : tr = .step ∧ step s = .next t := by
  cases tr with
  | step => exact ⟨rfl, h⟩
  | reset => cases h; cases ht
  | loadROM bytes => cases h; simp [hs] at ht
  | keyEvent key up => cases h; simp [keyEvent_halted, hs] at ht
  | readFramebuffer => cases h; simp [hs] at ht

/-- Only Reset and a key-down of a key 0 to 15 end the wait. -/
theorem transact_leaves_halt {tr : Transaction} (h : (transact tr s).1 = .next t) (hs : s.halted = true)
    (ht : t.halted = false) : tr = .reset ∨ ∃ key, key < 16 ∧ tr = .keyEvent key false := by
  cases tr with
  | step =>
    cases (step_of_halted hs).1.symm.trans h
    simp [hs] at ht
  | reset => exact .inl rfl
  | loadROM bytes => cases h; simp [hs] at ht
  | keyEvent key up =>
    cases h
    rw [keyEvent_halted] at ht
    split at ht
    · next hc =>
      obtain ⟨_, hkey, rfl⟩ := hc
      exact .inr ⟨key, hkey, rfl⟩
    · simp [hs] at ht
  | readFramebuffer => cases h; simp [hs] at ht

end HaltedFlag

/-- Settles O47: the two ways in and out are `transact_enters_halt` with `step_enters_halt`, and
`transact_leaves_halt`. -/
theorem haltedStateIsTheKeyWait : Obligations.HaltedStateIsTheKeyWait := by
  unfold Obligations.HaltedStateIsTheKeyWait
  refine ⟨fun s w x hr hw hd hk => ⟨_, step_waitKey_no_key hr hw hd hk, rfl, rfl⟩,
    fun tr s t h hs ht => ?_, fun tr s t => transact_leaves_halt, fun s => step_of_halted,
    fun s k hf hs => ⟨keyEvent_keypad_self k true hf, ?_⟩⟩
  · obtain ⟨rfl, hstep⟩ := transact_enters_halt h hs ht
    exact ⟨rfl, step_enters_halt hstep hs ht⟩
  · simp [keyEvent_halted, hs]

end Sys2Proof.Machine

/-! PROOF. Control transfer (spec/41_flow.md R110, R114): a jump and a skip are one write of `pc`, so both take
their frame from `State.setPc_onlyChanges`. -/

namespace Sys2Proof.Machine

section ControlTransfer

/-! ## Writes of `pc` -/

theorem State.setPc_onlyChanges (s : State) (a : Word) : s.onlyChanges (s.setPc a) [.pc] := by
  intro p hp
  cases p with
  | pc => exact absurd (List.mem_singleton.2 rfl) hp
  | mem => exact fun _ => rfl
  | _ => rfl

theorem State.skipIf_onlyChanges (s : State) (c : Bool) : s.onlyChanges (s.skipIf c) [.pc] :=
  s.setPc_onlyChanges _

/-- A jump target keeps its value as it becomes a `pc`. -/
@[simp] theorem zextAddr_toNat (nnn : Addr12) : (zextAddr nnn).toNat = nnn.toNat :=
  BitVec.toNat_setWidth_of_le (by decide)

/-! ## The instructions -/

theorem exec_jp (nnn : Addr12) (s : State) : exec (.jp nnn) s = .next (s.setPc (zextAddr nnn)) := rfl

theorem exec_seByte (x : RegId) (nn : Byte) (s : State) :
    exec (.seByte x nn) s = .next (s.skipIf (decide (s.V[x] = nn))) := rfl

/-! ## Their words -/

theorem decode_of_family_1 {w : Word} (h : fieldOP w = 1) : decode w = .ok (.jp (fieldNNN w)) := by
  simpa [h] using decode_by_family w

theorem decode_of_family_3 {w : Word} (h : fieldOP w = 3) :
    decode w = .ok (.seByte (fieldX w) (fieldNN w)) := by
  simpa [h] using decode_by_family w

end ControlTransfer

/-- Settles O1: the target is zero-extended into `pc`, and `pc` alone is written. -/
theorem jumpSetsPc : Obligations.JumpSetsPc := by
  unfold Obligations.JumpSetsPc
  exact ⟨fun w => decode_of_family_1,
    fun nnn s => ⟨_, exec_jp nnn s, zextAddr_toNat nnn, s.setPc_onlyChanges _⟩⟩

/-- Settles O7: the skip's condition is `Vx = NN`, and each of its outcomes is one value of `pc`. -/
theorem skipIfEqualImmediate : Obligations.SkipIfEqualImmediate := by
  unfold Obligations.SkipIfEqualImmediate
  refine ⟨fun w => decode_of_family_3,
    fun x nn s => ⟨_, exec_seByte x nn s, fun heq => ?_, fun hne => ?_, s.skipIf_onlyChanges _⟩⟩
  · rw [State.skipIf_pc, if_pos (decide_eq_true heq)]
  · rw [State.skipIf_pc, if_neg (mt of_decide_eq_true hne)]

end Sys2Proof.Machine

/-! PROOF. Register loads and arithmetic helpers (spec/42_alu.md R130, R143): a load is one register write and an
advance, so its register clauses are `State.readV_writeV`; each helper gets its exact value and its flag. -/

namespace Sys2Proof.Machine

section RegisterLoad

/-! ## Writes of one register -/

theorem State.writeV_keepsRegsBut (s : State) (x : RegId) (v : Byte) : s.keepsRegsBut (s.writeV x v) [x] := by
  intro r hr
  have hne : r ≠ x := mt List.mem_singleton.2 hr
  exact (State.readV_writeV x r v).trans (if_neg hne)

theorem State.writeV_advance_onlyChanges (s : State) (x : RegId) (v : Byte) :
    s.onlyChanges (s.writeV x v).advance [.V, .pc] := by
  intro p hp
  cases p with
  | V => exact absurd List.mem_cons_self hp
  | pc => exact absurd (List.mem_cons_of_mem _ List.mem_cons_self) hp
  | mem => exact fun _ => rfl
  | _ => rfl

/-! ## The load -/

theorem exec_ldByte (x : RegId) (nn : Byte) (s : State) :
    exec (.ldByte x nn) s = .next (s.writeV x nn).advance := rfl

theorem decode_of_family_6 {w : Word} (h : fieldOP w = 6) :
    decode w = .ok (.ldByte (fieldX w) (fieldNN w)) := by
  simpa [h] using decode_by_family w

end RegisterLoad

section ArithmeticHelpers

theorem checkedAdd_toNat (a b : Byte) : (checkedAdd a b).1.toNat = (a.toNat + b.toNat) % 256 :=
  BitVec.toNat_ofNat _ 8

theorem checkedAdd_overflow_iff (a b : Byte) : (checkedAdd a b).2 = true ↔ a.toNat + b.toNat > 255 :=
  decide_eq_true_iff

/-- The difference is the non-negative remainder, `a - b + 256` where it borrows (R143). -/
theorem checkedSub_toNat (a b : Byte) :
    ((checkedSub a b).1.toNat : Int) = ((a.toNat : Int) - b.toNat) % 256 := by
  have hmod : (checkedSub a b).1.toNat = (((a.toNat : Int) - b.toNat) % 256).toNat :=
    BitVec.toNat_ofInt _
  rw [hmod, Int.toNat_of_nonneg (Int.emod_nonneg _ (by decide))]

theorem checkedSub_borrow_iff (a b : Byte) : (checkedSub a b).2 = true ↔ a.toNat < b.toNat :=
  decide_eq_true_iff

/-- The low byte is the word's remainder by 256 and the high byte its quotient, so a word has one pair. -/
theorem combine_injective2 : Function.Injective2 combine := by
  intro a c b d h
  have hword := congrArg BitVec.toNat h
  rw [combine_toNat, combine_toNat] at hword
  have ha := a.isLt
  have hc := c.isLt
  exact ⟨BitVec.eq_of_toNat_eq (by omega), BitVec.eq_of_toNat_eq (by omega)⟩

end ArithmeticHelpers

/-- Settles O9: the load writes `Vx` and advances, and nothing else is written. -/
theorem loadImmediateSetsRegister : Obligations.LoadImmediateSetsRegister := by
  unfold Obligations.LoadImmediateSetsRegister
  refine ⟨fun w => decode_of_family_6, fun x nn s => ⟨_, exec_ldByte x nn s, ?_,
    s.writeV_keepsRegsBut x nn, rfl, s.writeV_advance_onlyChanges x nn⟩⟩
  exact (State.readV_writeV x x nn).trans (if_pos rfl)

/-- Settles O18: each helper's value and flag, and `combine` with its inverse, the two bytes of a word. -/
theorem arithmeticHelpersAreExact : Obligations.ArithmeticHelpersAreExact := by
  unfold Obligations.ArithmeticHelpersAreExact
  exact fun a b =>
    ⟨⟨checkedAdd_toNat a b, checkedAdd_overflow_iff a b⟩, ⟨checkedSub_toNat a b, checkedSub_borrow_iff a b⟩,
      combine_toNat a b, fun _ _ h => combine_injective2 h, fun w => ⟨_, _, combine_wordBytes w⟩⟩

end Sys2Proof.Machine

/-! PROOF. The decoder and the encoder (spec/30_encoding.md R71 to R81). A row of the opcode map fixes some fields
of a word and leaves the others to the operands: `Instr.withFields` fills an instruction's operands from a word, so
what a word decodes to is said for all 34 rows at once (`decode_of_row`). -/

namespace Sys2Proof

section Decoder

variable {m w : Word} {i : Instr}

/-- The instruction of the same row whose operands are the fields of `w` (R71, R73). -/
def Instr.withFields (w : Word) : Instr → Instr
  | .cls => .cls
  | .ret => .ret
  | .jp _ => .jp (fieldNNN w)
  | .call _ => .call (fieldNNN w)
  | .seByte _ _ => .seByte (fieldX w) (fieldNN w)
  | .sneByte _ _ => .sneByte (fieldX w) (fieldNN w)
  | .seReg _ _ => .seReg (fieldX w) (fieldY w)
  | .ldByte _ _ => .ldByte (fieldX w) (fieldNN w)
  | .addByte _ _ => .addByte (fieldX w) (fieldNN w)
  | .ldReg _ _ => .ldReg (fieldX w) (fieldY w)
  | .orReg _ _ => .orReg (fieldX w) (fieldY w)
  | .andReg _ _ => .andReg (fieldX w) (fieldY w)
  | .xorReg _ _ => .xorReg (fieldX w) (fieldY w)
  | .addReg _ _ => .addReg (fieldX w) (fieldY w)
  | .subReg _ _ => .subReg (fieldX w) (fieldY w)
  | .shr _ _ => .shr (fieldX w) (fieldY w)
  | .subnReg _ _ => .subnReg (fieldX w) (fieldY w)
  | .shl _ _ => .shl (fieldX w) (fieldY w)
  | .sneReg _ _ => .sneReg (fieldX w) (fieldY w)
  | .ldI _ => .ldI (fieldNNN w)
  | .jpV0 _ => .jpV0 (fieldNNN w)
  | .rnd _ _ => .rnd (fieldX w) (fieldNN w)
  | .drw _ _ _ => .drw (fieldX w) (fieldY w) (fieldN w).toNat
  | .skp _ => .skp (fieldX w)
  | .sknp _ => .sknp (fieldX w)
  | .ldFromDT _ => .ldFromDT (fieldX w)
  | .waitKey _ => .waitKey (fieldX w)
  | .ldDT _ => .ldDT (fieldX w)
  | .ldST _ => .ldST (fieldX w)
  | .addI _ => .addI (fieldX w)
  | .ldF _ => .ldF (fieldX w)
  | .bcd _ => .bcd (fieldX w)
  | .dump _ => .dump (fieldX w)
  | .load _ => .load (fieldX w)

/-- The fields of an encoded word are the operands, format by format (R72, R81). -/
theorem Instr.withFields_encode (hi : i.wf = true) : i.withFields (encode i) = i := by
  cases i
  case cls | ret => rfl
  case jp nnn | call nnn | ldI nnn | jpV0 nnn =>
    simp [Instr.withFields, encode, fields_encA]
  case seByte x nn | sneByte x nn | ldByte x nn | addByte x nn | rnd x nn =>
    simp [Instr.withFields, encode, fields_encRI]
  case drw x y n =>
    have hn : n < 16 := Nat.lt_succ_of_le (of_decide_eq_true hi)
    simp [Instr.withFields, encode, fields_encRRN, Nat.mod_eq_of_lt hn]
  case skp x | sknp x | ldFromDT x | waitKey x | ldDT x | ldST x | addI x | ldF x | bcd x | dump x | load x =>
    simp [Instr.withFields, encode, fields_encR]
  all_goals simp [Instr.withFields, encode, fields_encRR]

/-- A word that matches an instruction's row decodes to the instruction of that row with the word's operands: each
mask stands for the fields its format fixes (R72, R74). -/
theorem decode_of_row (h : w &&& i.row.2 = i.row.1) : decode w = .ok (i.withFields w) := by
  cases i <;> dsimp only [Instr.row] at h
  case cls | ret =>
    obtain rfl : w = _ := BitVec.and_allOnes.symm.trans h
    decide
  case jp _ | call _ | ldI _ | jpV0 _ | seByte _ _ | sneByte _ _ | ldByte _ _ | addByte _ _ | rnd _ _ | drw _ _ _ =>
    have hop := (and_F000 w _ rfl rfl rfl).1 h
    simp only [fieldOP, BitVec.reduceExtractLsb'] at hop
    simp [decode, fieldOP, hop, Instr.withFields]
  case skp x | sknp x | ldFromDT x | waitKey x | ldDT x | ldST x | addI x | ldF x | bcd x | dump x | load x =>
    obtain ⟨hop, hnn⟩ := (and_F0FF w _ rfl).1 h
    simp only [fieldOP, BitVec.reduceExtractLsb'] at hop
    simp only [fieldNN, BitVec.reduceExtractLsb'] at hnn
    simp [decode, decodeE, decodeF, fieldOP, fieldNN, hop, hnn, Instr.withFields]
  all_goals
    obtain ⟨hop, hn⟩ := (and_F00F w _ rfl rfl).1 h
    simp only [fieldOP, BitVec.reduceExtractLsb'] at hop
    simp only [fieldN, BitVec.reduceExtractLsb'] at hn
    simp [decode, decode5, decode8, decode9, fieldOP, fieldN, hop, hn, Instr.withFields]

/-- Every instruction's word matches its row, and that row is in the map. -/
theorem Instr.inRow (i : Instr) : Laws.InRow.Statement i := by
  cases i with
  | cls => exact Laws.InRow.cls
  | ret => exact Laws.InRow.ret
  | jp nnn => exact Laws.InRow.jp nnn
  | call nnn => exact Laws.InRow.call nnn
  | seByte x nn => exact Laws.InRow.seByte x nn
  | sneByte x nn => exact Laws.InRow.sneByte x nn
  | seReg x y => exact Laws.InRow.seReg x y
  | ldByte x nn => exact Laws.InRow.ldByte x nn
  | addByte x nn => exact Laws.InRow.addByte x nn
  | ldReg x y => exact Laws.InRow.ldReg x y
  | orReg x y => exact Laws.InRow.orReg x y
  | andReg x y => exact Laws.InRow.andReg x y
  | xorReg x y => exact Laws.InRow.xorReg x y
  | addReg x y => exact Laws.InRow.addReg x y
  | subReg x y => exact Laws.InRow.subReg x y
  | shr x y => exact Laws.InRow.shr x y
  | subnReg x y => exact Laws.InRow.subnReg x y
  | shl x y => exact Laws.InRow.shl x y
  | sneReg x y => exact Laws.InRow.sneReg x y
  | ldI nnn => exact Laws.InRow.ldI nnn
  | jpV0 nnn => exact Laws.InRow.jpV0 nnn
  | rnd x nn => exact Laws.InRow.rnd x nn
  | drw x y n => exact Laws.InRow.drw x y n
  | skp x => exact Laws.InRow.skp x
  | sknp x => exact Laws.InRow.sknp x
  | ldFromDT x => exact Laws.InRow.ldFromDT x
  | waitKey x => exact Laws.InRow.waitKey x
  | ldDT x => exact Laws.InRow.ldDT x
  | ldST x => exact Laws.InRow.ldST x
  | addI x => exact Laws.InRow.addI x
  | ldF x => exact Laws.InRow.ldF x
  | bcd x => exact Laws.InRow.bcd x
  | dump x => exact Laws.InRow.dump x
  | load x => exact Laws.InRow.load x

theorem decode_encode (hi : i.wf = true) : decode (encode i) = .ok i := by
  rw [decode_of_row i.inRow.2, Instr.withFields_encode hi]

/-- Each row of the map is the row of some instruction, whatever its operands. -/
theorem exists_row_eq {r : Word × Word} (hr : r ∈ opcodeMap) : ∃ i : Instr, i.row = r := by
  have hmap : opcodeMap = List.map Instr.row
      [.cls, .ret, .jp 0, .call 0, .seByte 0 0, .sneByte 0 0, .seReg 0 0, .ldByte 0 0, .addByte 0 0, .ldReg 0 0,
       .orReg 0 0, .andReg 0 0, .xorReg 0 0, .addReg 0 0, .subReg 0 0, .shr 0 0, .subnReg 0 0, .shl 0 0,
       .sneReg 0 0, .ldI 0, .jpV0 0, .rnd 0 0, .drw 0 0 0, .skp 0, .sknp 0, .ldFromDT 0, .waitKey 0, .ldDT 0,
       .ldST 0, .addI 0, .ldF 0, .bcd 0, .dump 0, .load 0] := rfl
  obtain ⟨i, -, hi⟩ := List.mem_map.1 (hmap ▸ hr)
  exact ⟨i, hi⟩

/-! ## A word is the encoding of its own fields -/

/-- The opcode and the address determine a word. -/
theorem word_ext_NNN {v w : Word} (hop : fieldOP v = fieldOP w) (hnnn : fieldNNN v = fieldNNN w) : v = w := by
  have hhigh := congrArg BitVec.toNat hop
  have hlow := congrArg BitVec.toNat hnnn
  simp only [fieldOP, fieldNNN, BitVec.extractLsb'_toNat, Nat.shiftRight_eq_div_pow] at hhigh hlow
  apply BitVec.eq_of_toNat_eq
  have := v.isLt
  have := w.isLt
  omega

/-- The opcode, the register and the low byte determine a word. -/
theorem word_ext_NN {v w : Word} (hop : fieldOP v = fieldOP w) (hx : fieldX v = fieldX w)
    (hnn : fieldNN v = fieldNN w) : v = w :=
  have ⟨hy, hn⟩ := (fieldNN_eq_iff v w).1 hnn
  word_ext_nibbles hop hx hy hn

theorem encA_fields (hm : m.extractLsb' 0 12 = 0) (hop : fieldOP w = fieldOP m) : encA m (fieldNNN w) = w :=
  have ⟨ho, hnnn⟩ := fields_encA (fieldNNN w) hm
  word_ext_NNN (ho.trans hop.symm) hnnn

theorem encRI_fields (hx : m.extractLsb' 8 4 = 0) (hn : m.extractLsb' 0 8 = 0) (hop : fieldOP w = fieldOP m) :
    encRI m (fieldX w) (fieldNN w) = w :=
  have ⟨ho, hx, hnn⟩ := fields_encRI (fieldX w) (fieldNN w) hx hn
  word_ext_NN (ho.trans hop.symm) hx hnn

theorem encRR_fields (hx : m.extractLsb' 8 4 = 0) (hy : m.extractLsb' 4 4 = 0) (hop : fieldOP w = fieldOP m)
    (hn : fieldN w = fieldN m) : encRR m (fieldX w) (fieldY w) = w :=
  have ⟨ho, hx, hy, hn'⟩ := fields_encRR (fieldX w) (fieldY w) hx hy
  word_ext_nibbles (ho.trans hop.symm) hx hy (hn'.trans hn.symm)

theorem encRRN_fields (hx : m.extractLsb' 8 4 = 0) (hy : m.extractLsb' 4 4 = 0) (hn : m.extractLsb' 0 4 = 0)
    (hop : fieldOP w = fieldOP m) : encRRN m (fieldX w) (fieldY w) (fieldN w).toNat = w :=
  have ⟨ho, hx, hy, hn⟩ := fields_encRRN (fieldX w) (fieldY w) (fieldN w).toNat hx hy hn
  word_ext_nibbles (ho.trans hop.symm) hx hy (hn.trans (BitVec.ofNat_toNat 4 _ |>.trans (BitVec.setWidth_eq _)))

theorem encR_fields (hx : m.extractLsb' 8 4 = 0) (hop : fieldOP w = fieldOP m) (hnn : fieldNN w = fieldNN m) :
    encR m (fieldX w) = w :=
  have ⟨ho, hx, hnn'⟩ := fields_encR (fieldX w) hx
  word_ext_NN (ho.trans hop.symm) hx (hnn'.trans hnn.symm)

/-- What a word decodes to is well-formed and encodes to that word: the tests the decoder made are the fields of
`match`, and the operands are the other fields. -/
theorem decode_sound (h : decode w = .ok i) : i.wf = true ∧ encode i = w := by
  rcases decode_by_family w with ⟨hop, hd⟩ | ⟨hop, hd⟩ | ⟨hop, hd⟩ | ⟨hop, hd⟩ | ⟨hop, hd⟩ | ⟨hop, hd⟩ |
    ⟨hop, hd⟩ | ⟨hop, hd⟩ | ⟨hop, hd⟩ | ⟨hop, hd⟩ | ⟨hop, hd⟩ | ⟨hop, hd⟩ | ⟨hop, hd⟩ | ⟨hop, hd⟩ |
    ⟨hop, hd⟩ | ⟨hop, hd⟩ <;> rw [hd] at h
  · obtain ⟨rfl, rfl⟩ | ⟨rfl, rfl⟩ := decode0_ok h <;> exact ⟨rfl, rfl⟩
  · cases h; exact ⟨rfl, encA_fields rfl hop⟩
  · cases h; exact ⟨rfl, encA_fields rfl hop⟩
  · cases h; exact ⟨rfl, encRI_fields rfl rfl hop⟩
  · cases h; exact ⟨rfl, encRI_fields rfl rfl hop⟩
  · obtain ⟨hn, rfl⟩ := decode5_ok h; exact ⟨rfl, encRR_fields rfl rfl hop hn⟩
  · cases h; exact ⟨rfl, encRI_fields rfl rfl hop⟩
  · cases h; exact ⟨rfl, encRI_fields rfl rfl hop⟩
  · obtain ⟨hn, rfl⟩ | ⟨hn, rfl⟩ | ⟨hn, rfl⟩ | ⟨hn, rfl⟩ | ⟨hn, rfl⟩ | ⟨hn, rfl⟩ | ⟨hn, rfl⟩ | ⟨hn, rfl⟩ |
      ⟨hn, rfl⟩ := decode8_ok h <;> exact ⟨rfl, encRR_fields rfl rfl hop hn⟩
  · obtain ⟨hn, rfl⟩ := decode9_ok h; exact ⟨rfl, encRR_fields rfl rfl hop hn⟩
  · cases h; exact ⟨rfl, encA_fields rfl hop⟩
  · cases h; exact ⟨rfl, encA_fields rfl hop⟩
  · cases h; exact ⟨rfl, encRI_fields rfl rfl hop⟩
  · cases h
    have hN := (fieldN w).isLt
    exact ⟨decide_eq_true (by omega), encRRN_fields rfl rfl rfl hop⟩
  · obtain ⟨hnn, rfl⟩ | ⟨hnn, rfl⟩ := decodeE_ok h <;> exact ⟨rfl, encR_fields rfl hop hnn⟩
  · obtain ⟨hnn, rfl⟩ | ⟨hnn, rfl⟩ | ⟨hnn, rfl⟩ | ⟨hnn, rfl⟩ | ⟨hnn, rfl⟩ | ⟨hnn, rfl⟩ | ⟨hnn, rfl⟩ |
      ⟨hnn, rfl⟩ | ⟨hnn, rfl⟩ := decodeF_ok h <;> exact ⟨rfl, encR_fields rfl hop hnn⟩

end Decoder

/-- Settles O55: an instruction's word matches its row, and its fields are the instruction's operands. -/
theorem decodeOfEncode : Obligations.DecodeOfEncode := by
  unfold Obligations.DecodeOfEncode
  exact fun i => decode_encode

/-- Settles O56: the word of an instruction is the only one that decodes to it. -/
theorem encodeOfDecode : Obligations.EncodeOfDecode := by
  unfold Obligations.EncodeOfDecode
  exact fun w i h => (decode_sound h).2

/-- Settles O54: a decoded word is the word of an instruction, which matches its row. -/
theorem decodeFollowsOpcodeMap : Obligations.DecodeFollowsOpcodeMap := by
  unfold Obligations.DecodeFollowsOpcodeMap
  have row_of_decode : ∀ w i, decode w = .ok i → i.wf = true ∧ i.row ∈ opcodeMap ∧ w &&& i.row.2 = i.row.1 := by
    intro w i h
    obtain ⟨hwf, rfl⟩ := decode_sound h
    exact ⟨hwf, i.inRow⟩
  refine ⟨fun w => ⟨fun ⟨i, h⟩ => ⟨i.row, (row_of_decode w i h).2⟩, fun ⟨r, hr, hw⟩ => ?_⟩, row_of_decode⟩
  obtain ⟨i, rfl⟩ := exists_row_eq hr
  exact ⟨_, decode_of_row hw⟩

/-- Settles O57: fixed words, evaluated. -/
theorem sampleWordsDecode : Obligations.SampleWordsDecode := by
  unfold Obligations.SampleWordsDecode
  decide

end Sys2Proof

/-! PROOF. Frames, and what an instruction can do: one frame per update of the state, their composition, and for all
34 instructions the two outcomes of `exec` (spec/10_state.md R35, spec/60_exceptions.md R212, R213). -/

namespace Sys2Proof.Machine

section Frames

variable {s t u : State} {ps qs : List Part}

theorem State.agreeOn.trans {p : Part} (h : s.agreeOn t p) (h' : t.agreeOn u p) : s.agreeOn u p := by
  cases p with
  | mem => exact fun a => (h' a).trans (h a)
  | _ => exact Eq.trans h' h

theorem State.onlyChanges.trans (h : s.onlyChanges t ps) (h' : t.onlyChanges u qs) :
    s.onlyChanges u (ps ++ qs) := fun p hp =>
  have ⟨hps, hqs⟩ := not_or.1 (mt List.mem_append.2 hp)
  (h p hps).trans (h' p hqs)

theorem State.onlyChanges.mono (h : s.onlyChanges t ps) (hsub : ps ⊆ qs) : s.onlyChanges t qs :=
  fun p hp => h p (mt (@hsub p) hp)

/-! ## One frame per update -/

theorem State.writeV_onlyChanges (s : State) (x : RegId) (v : Byte) : s.onlyChanges (s.writeV x v) [.V] := by
  intro p hp; cases p <;> simp_all [State.agreeOn]

theorem State.writeVFlag_onlyChanges (s : State) (x : RegId) (r f : Byte) :
    s.onlyChanges (s.writeVFlag x r f) [.V] := by
  intro p hp; cases p <;> simp_all [State.agreeOn]

theorem State.loadRegs_onlyChanges (s : State) (x : RegId) : s.onlyChanges (s.loadRegs x) [.V] := by
  intro p hp; cases p <;> simp_all [State.agreeOn]

theorem State.setI_onlyChanges (s : State) (a : Word) : s.onlyChanges (s.setI a) [.I] := by
  intro p hp; cases p <;> simp_all [State.agreeOn]

theorem State.setDT_onlyChanges (s : State) (v : Byte) : s.onlyChanges (s.setDT v) [.DT] := by
  intro p hp; cases p <;> simp_all [State.agreeOn]

theorem State.setST_onlyChanges (s : State) (v : Byte) : s.onlyChanges (s.setST v) [.ST] := by
  intro p hp; cases p <;> simp_all [State.agreeOn]

theorem State.setHalted_onlyChanges (s : State) (b : Bool) : s.onlyChanges (s.setHalted b) [.halted] := by
  intro p hp; cases p <;> simp_all [State.agreeOn]

theorem State.setKey_onlyChanges (s : State) (k : Fin Config.nKeys) (b : Bool) :
    s.onlyChanges (s.setKey k b) [.keypad] := by
  intro p hp; cases p <;> simp_all [State.agreeOn]

theorem State.setOpcode_onlyChanges (s : State) (w : Word) : s.onlyChanges (s.setOpcode w) [.currentOpcode] := by
  intro p hp; cases p <;> simp_all [State.agreeOn]

theorem State.setFb_onlyChanges (s : State) (f : Framebuffer) : s.onlyChanges (s.setFb f) [.fb] := by
  intro p hp; cases p <;> simp_all [State.agreeOn]

theorem State.setMem_onlyChanges (s : State) (m : Memory) : s.onlyChanges (s.setMem m) [.mem] := by
  intro p hp; cases p <;> simp_all [State.agreeOn]

theorem State.countDraw_onlyChanges (s : State) : s.onlyChanges s.countDraw [.draws] := by
  intro p hp; cases p <;> simp_all [State.agreeOn]

theorem State.raise_onlyChanges (s : State) (f : Fault) : s.onlyChanges (s.raise f) [.fault] := by
  intro p hp; cases p <;> simp_all [State.agreeOn]

theorem State.tick_onlyChanges (s : State) : s.onlyChanges s.tick [.DT, .ST] := by
  intro p hp; cases p <;> simp_all [State.agreeOn]

/-- What a push writes (R111). -/
theorem State.withStack_onlyChanges (s : State) (st : Vector Word Config.stackDepth) (n : Fin (Config.stackDepth + 1)) :
    s.onlyChanges { s with stack := st, sp := n } [.stack, .sp] := by
  intro p hp; cases p <;> simp_all [State.agreeOn]

/-- What a pop writes (R112). -/
theorem State.withSp_onlyChanges (s : State) (n : Fin (Config.stackDepth + 1)) :
    s.onlyChanges { s with sp := n } [.sp] := by
  intro p hp; cases p <;> simp_all [State.agreeOn]

theorem State.onlyChanges.setPc (h : s.onlyChanges t ps) (a : Word) : s.onlyChanges (t.setPc a) (ps ++ [.pc]) :=
  h.trans (t.setPc_onlyChanges a)

/-- The advance at an instruction's end adds `pc` to what it wrote. -/
theorem State.onlyChanges.advance (h : s.onlyChanges t ps) : s.onlyChanges t.advance (ps ++ [.pc]) :=
  h.setPc _

theorem State.draw_onlyChanges (s : State) (x y : RegId) (n : Nat) :
    s.onlyChanges (s.draw x y n) [.V, .fb, .pc] :=
  ((s.setFb_onlyChanges _).trans (State.writeV_onlyChanges _ _ _)).advance.mono
    (show [Part.fb, .V, .pc] ⊆ [.V, .fb, .pc] by decide)

/-! ## Registers -/

theorem State.keepsRegsBut_of_V_eq (h : t.V = s.V) (rs : List RegId) : s.keepsRegsBut t rs :=
  fun _ _ => by rw [h]

theorem State.writeV_V_self (s : State) (x : RegId) (v : Byte) : (s.writeV x v).V[x] = v :=
  (State.readV_writeV x x v).trans (if_pos rfl)

theorem State.writeVFlag_V_vF (s : State) (x : RegId) (r f : Byte) : (s.writeVFlag x r f).V[vF] = f :=
  (State.readV_writeVFlag x vF r f).trans (if_pos rfl)

theorem State.writeVFlag_V_self {x : RegId} (hx : x ≠ vF) (s : State) (r f : Byte) :
    (s.writeVFlag x r f).V[x] = r :=
  (State.readV_writeVFlag x x r f).trans ((if_neg hx).trans (if_pos rfl))

theorem State.writeVFlag_keepsRegsBut (s : State) (x : RegId) (r f : Byte) :
    s.keepsRegsBut (s.writeVFlag x r f) [x, vF] := by
  intro k hk
  rw [List.mem_pair, not_or] at hk
  exact (State.readV_writeVFlag x k r f).trans ((if_neg hk.2).trans (if_neg hk.1))

/-- What the register load leaves in a register: the byte it read, or the old value above `x` (R165). -/
theorem State.loadRegs_V_apply (s : State) (x k : RegId) :
    (s.loadRegs x).V[k] = if k ≤ x then s.mem.read (s.effAddr k.val) else s.V[k] :=
  Vector.getElem_ofFn k.isLt

theorem State.draw_keepsRegsBut (s : State) (x y : RegId) (n : Nat) : s.keepsRegsBut (s.draw x y n) [vF] :=
  State.writeV_keepsRegsBut (s.setFb _) vF _

end Frames

section Outcomes

variable {s t : State} {i : Instr}

/-- Out of its bounds an instruction raises a fault and does nothing else (R212, R213). -/
theorem exec_of_not_staysInBounds (h : ¬i.staysInBounds s) : ∃ f, exec i s = .next (s.raise f) := by
  cases i
  case call nnn =>
    exact ⟨_, exec_call_of_full nnn (Nat.le_antisymm (Nat.le_of_lt_succ s.sp.isLt) (not_lt.1 h))⟩
  case ret => exact ⟨_, exec_ret_of_zero (Nat.eq_zero_of_not_pos h)⟩
  case drw x y n =>
    obtain ⟨hn, hI⟩ := not_or.1 h
    exact ⟨_, exec_drw_of_gt (Nat.pos_of_ne_zero hn) (not_le.1 hI)⟩
  case bcd x => exact ⟨_, exec_bcd_of_gt (not_le.1 h)⟩
  case dump x => exact ⟨_, exec_dump_of_gt (not_le.1 h)⟩
  case load x => exact ⟨_, exec_load_of_gt (not_le.1 h)⟩
  case skp x => exact ⟨_, exec_skp_of_gt (not_le.1 h)⟩
  case sknp x => exact ⟨_, exec_sknp_of_gt (not_le.1 h)⟩
  all_goals exact absurd trivial h

/-- In its bounds an instruction writes `pc`, the parts the access matrix marks for it and its destination
registers, and raises no fault (R35). -/
theorem exec_of_staysInBounds (h : i.staysInBounds s) :
    ∃ t, exec i s = .next t ∧ s.onlyChanges t (i.mayWrite ++ [.pc]) ∧ s.keepsRegsBut t i.destRegs := by
  cases i
  -- one write of `pc`
  case jp nnn | jpV0 nnn | seByte x nn | sneByte x nn | seReg x y | sneReg x y =>
    exact ⟨_, rfl, s.setPc_onlyChanges _, fun _ _ => rfl⟩
  case skp x =>
    exact ⟨_, exec_skp_of_lt (Nat.lt_succ_of_le h), s.setPc_onlyChanges _, fun _ _ => rfl⟩
  case sknp x =>
    exact ⟨_, exec_sknp_of_lt (Nat.lt_succ_of_le h), s.setPc_onlyChanges _, fun _ _ => rfl⟩
  -- the stack
  case call nnn => exact ⟨_, exec_call_of_lt nnn h, (s.withStack_onlyChanges _ _).setPc _, fun _ _ => rfl⟩
  case ret =>
    exact ⟨_, exec_ret_of_pos h, ((s.withSp_onlyChanges _).setPc _).mono
      (show [Part.sp, .pc] ⊆ [.stack, .sp, .pc] by decide), fun _ _ => rfl⟩
  -- one register
  case ldByte x nn | addByte x nn | ldReg x y | orReg x y | andReg x y | xorReg x y | ldFromDT x =>
    exact ⟨_, rfl, s.writeV_advance_onlyChanges x _, s.writeV_keepsRegsBut x _⟩
  case rnd x nn =>
    exact ⟨_, rfl, ((s.writeV_onlyChanges x _).trans (State.countDraw_onlyChanges _)).advance,
      s.writeV_keepsRegsBut x _⟩
  case waitKey x =>
    cases hk : s.leastKey with
    | some k =>
      exact ⟨_, exec_waitKey_of_some hk, (s.writeV_advance_onlyChanges x _).mono
        (show [Part.V, .pc] ⊆ [.V, .halted, .pc] by decide), s.writeV_keepsRegsBut x _⟩
    | none =>
      exact ⟨_, exec_waitKey_of_none hk, (s.setHalted_onlyChanges true).mono
        (show [Part.halted] ⊆ [.V, .halted, .pc] by decide), fun _ _ => rfl⟩
  -- a register and the flag
  case addReg x y | subReg x y | shr x y | subnReg x y | shl x y =>
    exact ⟨_, rfl, (s.writeVFlag_onlyChanges x _ _).advance, s.writeVFlag_keepsRegsBut x _ _⟩
  -- the other parts
  case ldI nnn | addI x | ldF x => exact ⟨_, rfl, (s.setI_onlyChanges _).advance, fun _ _ => rfl⟩
  case ldDT x => exact ⟨_, rfl, (s.setDT_onlyChanges _).advance, fun _ _ => rfl⟩
  case ldST x => exact ⟨_, rfl, (s.setST_onlyChanges _).advance, fun _ _ => rfl⟩
  case cls => exact ⟨_, rfl, (s.setFb_onlyChanges _).advance, fun _ _ => rfl⟩
  case drw x y n => exact ⟨_, exec_drw_of_le h, s.draw_onlyChanges x y n, s.draw_keepsRegsBut x y n⟩
  case bcd x => exact ⟨_, exec_bcd_of_le h, (s.setMem_onlyChanges _).advance, fun _ _ => rfl⟩
  case dump x => exact ⟨_, exec_dump_of_le h, (s.setMem_onlyChanges _).advance, fun _ _ => rfl⟩
  case load x =>
    refine ⟨_, exec_load_of_le h, (s.loadRegs_onlyChanges x).advance, fun k hk => ?_⟩
    have habove : ¬k ≤ x := by simpa [Instr.destRegs, List.mem_finRange] using hk
    exact (s.loadRegs_V_apply x k).trans (if_neg habove)

theorem fault_not_mem_mayWrite (i : Instr) : Part.fault ∉ i.mayWrite ++ [.pc] := by
  cases i <;> simp [Instr.mayWrite]

/-- The two outcomes of an instruction: its effect, in bounds, with the fault register as before; or a fault, out of
bounds, and nothing else. -/
theorem exec_cases (i : Instr) (s : State) :
    (i.staysInBounds s ∧ ∃ t, exec i s = .next t ∧ t.fault = s.fault ∧
      s.onlyChanges t (i.mayWrite ++ [.pc]) ∧ s.keepsRegsBut t i.destRegs) ∨
    (¬i.staysInBounds s ∧ ∃ f, exec i s = .next (s.raise f)) := by
  by_cases hb : i.staysInBounds s
  · obtain ⟨t, he, hframe, hregs⟩ := exec_of_staysInBounds hb
    exact .inl ⟨hb, t, he, hframe .fault (fault_not_mem_mayWrite i), hframe, hregs⟩
  · exact .inr ⟨hb, exec_of_not_staysInBounds hb⟩

/-- `exec` answers a next state for every instruction in every state (R94, log 2). -/
theorem exec_answers (i : Instr) (s : State) : ∃ t, exec i s = .next t := by
  obtain ⟨-, t, he, -⟩ | ⟨-, f, he⟩ := exec_cases i s
  · exact ⟨t, he⟩
  · exact ⟨_, he⟩

end Outcomes

/-- Settles O42: the frame of either outcome of `exec_cases` lies inside the matrix. -/
theorem accessMatrix : Obligations.AccessMatrix := by
  unfold Obligations.AccessMatrix
  intro i s
  obtain ⟨-, t, he, -, hframe, hregs⟩ | ⟨-, f, he⟩ := exec_cases i s
  · exact ⟨t, he, hframe.mono (by simp), hregs⟩
  · exact ⟨_, he, (s.raise_onlyChanges f).mono (by simp), State.keepsRegsBut_of_V_eq rfl _⟩

/-- Settles O41: from a state without a fault only the second outcome of `exec_cases` has one. -/
theorem faultingInstructionWritesNothing : Obligations.FaultingInstructionWritesNothing := by
  unfold Obligations.FaultingInstructionWritesNothing
  intro i s hs
  obtain ⟨-, t, he, hf, -⟩ | ⟨-, f, he⟩ := exec_cases i s
  · exact ⟨t, he, fun ht => absurd (hf.trans hs) ht⟩
  · exact ⟨_, he, fun _ => s.raise_onlyChanges f⟩

end Sys2Proof.Machine

/-! PROOF. The invariant of spec/10_state.md R36: what it asks of the one write of `pc`, of the stack and of memory,
then every instruction, the Step and the other transactions. -/

namespace Sys2Proof.Machine

section Invariant

variable {s t : State}

/-- `pc` advances without wrap where an instruction is fetched (log 9). -/
theorem State.toNat_pc_add_two (hpc : s.pc.toNat ≤ 0xFFE) : (s.pc + 2).toNat = s.pc.toNat + 2 := by
  rw [BitVec.toNat_add]
  exact Nat.mod_eq_of_lt (by simp; omega)

theorem State.toNat_pc_add_four (hpc : s.pc.toNat ≤ 0xFFE) : (s.pc + 4).toNat = s.pc.toNat + 4 := by
  rw [BitVec.toNat_add]
  exact Nat.mod_eq_of_lt (by simp; omega)

theorem zextByte_toNat (v : Byte) : (zextByte v).toNat = v.toNat :=
  BitVec.toNat_setWidth_of_le (by decide)

/-- The target of `JP V0` is a sum below 65536, so it does not wrap (D30). -/
theorem jpV0_target_toNat (nnn : Addr12) (v : Byte) :
    (zextAddr nnn + zextByte v).toNat = nnn.toNat + v.toNat := by
  have := nnn.isLt
  have := v.isLt
  rw [BitVec.toNat_add, zextAddr_toNat, zextByte_toNat, Nat.mod_eq_of_lt (by omega)]

/-- `LD [I], Vx` stores one byte for each register up to `Vx`. -/
theorem State.length_regsTo (s : State) (x : RegId) : (s.regsTo x).length = x.val + 1 := by
  rw [State.regsTo, List.length_take, Vector.length_toList, Nat.min_eq_left x.isLt]

/-! ## The runs of stores the range checks let pass end inside memory -/

theorem State.bcdDigits_inside (h : s.I.toNat + 2 ≤ 0xFFF) (v : Byte) :
    s.effAddr 0 + (bcdDigits v).length ≤ Config.memSize :=
  Nat.succ_le_succ h

theorem State.regsTo_inside {x : RegId} (h : s.I.toNat + x.val ≤ 0xFFF) :
    s.effAddr 0 + (s.regsTo x).length ≤ Config.memSize := by
  rw [s.length_regsTo x]
  exact Nat.succ_le_succ h

theorem romBase_add_le {n : Nat} (h : n ≤ 3584) : Config.romBase + n ≤ Config.memSize :=
  Nat.add_le_add_left h 512

/-! ## The invariant under the updates of the state -/

/-- The invariant speaks of six parts of the state. -/
theorem State.Inv.congr (h : s.Inv) (hmem : t.mem = s.mem) (hpc : t.pc = s.pc) (hstack : t.stack = s.stack)
    (hsp : t.sp = s.sp) (hhalted : t.halted = s.halted) (hop : t.currentOpcode = s.currentOpcode) : t.Inv where
  memWf := by rw [hmem]; exact h.memWf
  pcBound := by rw [hpc]; exact h.pcBound
  stackBound := by rw [hstack, hsp]; exact h.stackBound
  haltedOnWait := by rw [hhalted, hpc, hop]; exact h.haltedOnWait

theorem State.Inv.raise (h : s.Inv) (f : Fault) : (s.raise f).Inv :=
  h.congr rfl rfl rfl rfl rfl rfl

theorem State.Inv.tick (h : s.Inv) : s.tick.Inv :=
  h.congr rfl rfl rfl rfl rfl rfl

theorem State.Inv.writeV (h : s.Inv) (x : RegId) (v : Byte) : (s.writeV x v).Inv :=
  h.congr rfl rfl rfl rfl rfl rfl

theorem State.Inv.setFb (h : s.Inv) (f : Framebuffer) : (s.setFb f).Inv :=
  h.congr rfl rfl rfl rfl rfl rfl

theorem State.Inv.setKey (h : s.Inv) (k : Fin Config.nKeys) (b : Bool) : (s.setKey k b).Inv :=
  h.congr rfl rfl rfl rfl rfl rfl

theorem State.Inv.setMem (h : s.Inv) {m : Memory} (hm : m.wf = true) : (s.setMem m).Inv :=
  ⟨hm, h.pcBound, h.stackBound, h.haltedOnWait⟩

/-- Ending the wait leaves nothing to say of `currentOpcode`. -/
theorem State.Inv.endWait (h : s.Inv) : (s.setHalted false).Inv :=
  ⟨h.memWf, h.pcBound, h.stackBound, nofun⟩

theorem State.Inv.setOpcode (h : s.Inv) (hrun : s.halted = false) (w : Word) : (s.setOpcode w).Inv :=
  ⟨h.memWf, h.pcBound, h.stackBound, fun hh => absurd (hrun.symm.trans hh) Bool.false_ne_true⟩

/-- A machine that is not halted may write any `pc` up to 0x10FE. -/
theorem State.Inv.setPc (h : s.Inv) (hrun : s.halted = false) {a : Word} (ha : a.toNat ≤ 0x10FE) :
    (s.setPc a).Inv :=
  ⟨h.memWf, ha, h.stackBound, fun hh => absurd (hrun.symm.trans hh) Bool.false_ne_true⟩

theorem State.Inv.advance (h : s.Inv) (hrun : s.halted = false) (hpc : s.pc.toNat ≤ 0xFFE) : s.advance.Inv :=
  h.setPc hrun (by rw [State.toNat_pc_add_two hpc]; omega)

theorem State.Inv.skipIf (h : s.Inv) (hrun : s.halted = false) (hpc : s.pc.toNat ≤ 0xFFE) (c : Bool) :
    (s.skipIf c).Inv := by
  refine h.setPc hrun ?_
  cases c
  · exact (State.toNat_pc_add_two hpc).trans_le (by omega)
  · exact (State.toNat_pc_add_four hpc).trans_le (by omega)

/-- A push of the next instruction's address keeps every entry in 2 to 0x1000, since pc can be fetched. -/
theorem State.Inv.push (h : s.Inv) (hpc : s.pc.toNat ≤ 0xFFE) (hsp : s.sp.val < Config.stackDepth) :
    ({ s with stack := s.stack.set s.sp.val (s.pc + 2), sp := ⟨s.sp.val + 1, by omega⟩ } : State).Inv := by
  refine ⟨h.memWf, h.pcBound, fun k hk => ?_, h.haltedOnWait⟩
  simp only [Fin.getElem_fin, Vector.getElem_set]
  split
  · rw [State.toNat_pc_add_two hpc]; omega
  · next hne => exact h.stackBound k (Nat.lt_of_le_of_ne (Nat.le_of_lt_succ hk) (Ne.symm hne))

/-- A pop leaves fewer entries to bound, and the popped one was bounded. -/
theorem State.Inv.pop (h : s.Inv) (hsp : 0 < s.sp.val) :
    ({ s with sp := ⟨s.sp.val - 1, by omega⟩ } : State).Inv ∧ (s.stack[s.sp.val - 1]).toNat ≤ 0x10FE :=
  ⟨⟨h.memWf, h.pcBound, fun k hk => h.stackBound k (Nat.lt_of_lt_of_le hk (Nat.sub_le _ _)), h.haltedOnWait⟩,
    (h.stackBound ⟨s.sp.val - 1, by omega⟩ (Nat.sub_lt hsp Nat.one_pos)).2.trans (by decide)⟩

/-! ## The invariant under the instructions -/

/-- Every instruction that is executed where it was fetched keeps the invariant. -/
theorem exec_keeps_inv {i : Instr} (h : s.Inv) (hrun : s.halted = false) (hpc : s.pc.toNat ≤ 0xFFE)
    (hop : decode s.currentOpcode = .ok i) (he : exec i s = .next t) : t.Inv := by
  by_cases hb : i.staysInBounds s
  case neg =>
    obtain ⟨f, hf⟩ := exec_of_not_staysInBounds hb
    cases hf.symm.trans he
    exact h.raise f
  cases i
  case jp nnn =>
    cases he
    exact h.setPc hrun (by rw [zextAddr_toNat]; omega)
  case jpV0 nnn =>
    cases he
    have := (s.readV 0).isLt
    exact h.setPc hrun (by rw [jpV0_target_toNat]; omega)
  case seByte x nn | sneByte x nn | seReg x y | sneReg x y =>
    cases he
    exact h.skipIf hrun hpc _
  case skp x =>
    cases (exec_skp_of_lt (Nat.lt_succ_of_le hb)).symm.trans he
    exact h.skipIf hrun hpc _
  case sknp x =>
    cases (exec_sknp_of_lt (Nat.lt_succ_of_le hb)).symm.trans he
    exact h.skipIf hrun hpc _
  case call nnn =>
    cases (exec_call_of_lt nnn hb).symm.trans he
    exact (h.push hpc hb).setPc hrun (by rw [zextAddr_toNat]; omega)
  case ret =>
    cases (exec_ret_of_pos hb).symm.trans he
    obtain ⟨hinv, htop⟩ := h.pop hb
    exact hinv.setPc hrun htop
  case waitKey x =>
    cases hk : s.leastKey with
    | some k =>
      cases (exec_waitKey_of_some hk).symm.trans he
      exact (h.writeV x _).advance hrun hpc
    | none =>
      cases (exec_waitKey_of_none hk).symm.trans he
      exact ⟨h.memWf, h.pcBound, h.stackBound, fun _ => ⟨hpc, x, hop⟩⟩
  case bcd x =>
    cases (exec_bcd_of_le hb).symm.trans he
    exact (h.setMem (Memory.wf_writeBytes h.memWf (State.bcdDigits_inside hb _))).advance hrun hpc
  case dump x =>
    cases (exec_dump_of_le hb).symm.trans he
    exact (h.setMem (Memory.wf_writeBytes h.memWf (State.regsTo_inside hb))).advance hrun hpc
  case load x =>
    obtain rfl := Host.Outcome.next.inj ((exec_load_of_le hb).symm.trans he)
    apply (h.advance hrun hpc).congr <;> simp
  case drw x y n =>
    cases (exec_drw_of_le hb).symm.trans he
    exact ((h.setFb _).writeV vF _).advance hrun hpc
  -- The other instructions write parts of which the invariant says nothing, and advance.
  all_goals
    cases he
    exact State.Inv.advance (h.congr rfl rfl rfl rfl rfl rfl) hrun hpc

/-! ## The invariant under the transactions -/

/-- The end of a Step adds at most the tick to what the instruction answered. -/
theorem finishStep_cases {r : Result} (h : (finishStep r).1 = .next t) :
    ∃ u, r = .next u ∧ (t = u.tick ∨ t = u) := by
  cases r with
  | next u =>
    rw [finishStep_next] at h
    split at h <;> cases h
    · exact ⟨u, rfl, .inl rfl⟩
    · exact ⟨_, rfl, .inr rfl⟩
  | fault r => cases h
  | refused r => cases h

theorem step_keeps_inv (h : s.Inv) (hs : step s = .next t) : t.Inv := by
  unfold step at hs
  obtain ⟨-, e⟩ | ⟨-, -, e⟩ | ⟨-, -, -, e⟩ | ⟨-, hrun, hpc, w, hw, ⟨-, -, e⟩ | ⟨i, hd, e⟩⟩ := runStep_cases s <;>
    rw [e] at hs
  · cases hs; exact h
  · cases hs; exact h
  · cases hs; exact h.raise _
  · cases hs; exact (h.setOpcode hrun w).raise _
  · obtain ⟨u, hu, ht⟩ := finishStep_cases hs
    have hinv := exec_keeps_inv (h.setOpcode hrun w) hrun hpc hd hu
    obtain rfl | rfl := ht
    · exact hinv.tick
    · exact hinv

theorem State.reset_inv : State.reset.Inv :=
  ⟨Memory.wf_nil, by decide, nofun, nofun⟩

theorem resetMachine_inv (s : State) : (resetMachine s).Inv :=
  ⟨Memory.wf_nil, State.reset_inv.pcBound, nofun, nofun⟩

theorem loadROM_keeps_inv (h : s.Inv) (bytes : List Byte) : (loadROM bytes s).Inv := by
  unfold loadROM
  split
  · exact h
  · split
    · exact h.raise _
    · next hlen => exact h.setMem (Memory.wf_writeBytes h.memWf (romBase_add_le (not_lt.1 hlen)))

theorem keyEvent_keeps_inv (h : s.Inv) (key : Nat) (up : Bool) : (keyEvent key up s).Inv := by
  unfold keyEvent
  split
  · exact h
  · split
    · split
      · exact h.setKey _ _
      · exact (h.setKey _ _).endWait
    · exact h

end Invariant

/-- Settles O58: `exec_keeps_inv` on the decoded instruction; a Step that executes nothing changes nothing the
invariant speaks of. -/
theorem stepKeepsInvariant : Obligations.StepKeepsInvariant := by
  unfold Obligations.StepKeepsInvariant
  exact fun s t => step_keeps_inv

/-- Settles O59: nothing is listed in memory, and no address is on the stack. -/
theorem resetMeetsInvariant : Obligations.ResetMeetsInvariant := by
  unfold Obligations.ResetMeetsInvariant
  exact State.reset_inv

/-- Settles O60: one lemma per transaction. -/
theorem transactionsKeepInvariant : Obligations.TransactionsKeepInvariant := by
  unfold Obligations.TransactionsKeepInvariant
  intro tr s t h ht
  cases tr with
  | step => exact step_keeps_inv h ht
  | reset => cases ht; exact resetMachine_inv s
  | loadROM bytes => cases ht; exact loadROM_keeps_inv h bytes
  | keyEvent key up => cases ht; exact keyEvent_keeps_inv h key up
  | readFramebuffer => cases ht; exact h

end Sys2Proof.Machine

/-! PROOF. Calls, returns and the other skips (spec/41_flow.md R111 to R117). -/

namespace Sys2Proof.Machine

section CallsAndSkips

variable {s : State}

theorem exec_jpV0 (nnn : Addr12) (s : State) :
    exec (.jpV0 nnn) s = .next (s.setPc (zextAddr nnn + zextByte (s.readV 0))) := rfl

theorem exec_sneByte (x : RegId) (nn : Byte) (s : State) :
    exec (.sneByte x nn) s = .next (s.skipIf (decide (s.V[x] ≠ nn))) := rfl

theorem exec_seReg (x y : RegId) (s : State) :
    exec (.seReg x y) s = .next (s.skipIf (decide (s.V[x] = s.V[y]))) := rfl

theorem exec_sneReg (x y : RegId) (s : State) :
    exec (.sneReg x y) s = .next (s.skipIf (decide (s.V[x] ≠ s.V[y]))) := rfl

/-- A push keeps every entry but the one at `sp`. -/
theorem State.keepsStackBut_of_push {t : State} {a : Word} (h : s.sp.val < Config.stackDepth)
    (ht : t.stack = s.stack.set s.sp.val a) : s.keepsStackBut t [s.sp.val] := fun k hk => by
  rw [ht]
  exact Vector.getElem_set_ne h k.isLt (Ne.symm (mt List.mem_singleton.2 hk))

theorem State.skipIf_pc_of_true {c : Bool} (h : c = true) : (s.skipIf c).pc = s.pc + 4 :=
  if_pos h

theorem State.skipIf_pc_of_false {c : Bool} (h : c = false) : (s.skipIf c).pc = s.pc + 2 :=
  if_neg (by simp [h])

end CallsAndSkips

/-- Settles O2: the sum of 12 bits and 8 bits fits `pc`. -/
theorem jumpV0AddsWithoutWrap : Obligations.JumpV0AddsWithoutWrap := by
  unfold Obligations.JumpV0AddsWithoutWrap
  exact fun nnn s => ⟨_, exec_jpV0 nnn s, jpV0_target_toNat nnn _, s.setPc_onlyChanges _⟩

/-- Settles O3: a push writes the one entry at `sp`. -/
theorem callPushesReturnAddress : Obligations.CallPushesReturnAddress := by
  unfold Obligations.CallPushesReturnAddress
  exact fun nnn s h => ⟨_, exec_call_of_lt nnn h, rfl, Vector.getElem_set_self _,
    State.keepsStackBut_of_push h rfl, zextAddr_toNat nnn, (s.withStack_onlyChanges _ _).setPc _⟩

/-- Settles O4: a pop writes `sp` alone. -/
theorem returnPopsAddress : Obligations.ReturnPopsAddress := by
  unfold Obligations.ReturnPopsAddress
  exact fun s h => ⟨_, exec_ret_of_pos h, rfl, rfl, (s.withSp_onlyChanges _).setPc _⟩

/-- Settles O5: at the two ends of the stack nothing but the fault is written. -/
theorem stackLimitsFault : Obligations.StackLimitsFault := by
  unfold Obligations.StackLimitsFault
  exact ⟨fun nnn s h => ⟨_, exec_call_of_full nnn h, rfl, rfl, s.raise_onlyChanges _⟩,
    fun s h => ⟨_, exec_ret_of_zero h, rfl, rfl, s.raise_onlyChanges _⟩⟩

/-- Settles O6: the return pops the entry the call has just pushed. -/
theorem callThenReturnComesBack : Obligations.CallThenReturnComesBack := by
  unfold Obligations.CallThenReturnComesBack
  refine fun nnn s h => ⟨_, exec_call_of_lt nnn h, _, exec_ret_of_pos (Nat.succ_pos _),
    Vector.getElem_set_self _, rfl, State.keepsStackBut_of_push h rfl, fun p hp => ?_⟩
  cases p <;> simp_all [State.agreeOn]

/-- Settles O8: each skip's condition decides between two values of `pc`. -/
theorem skipOnRegisters : Obligations.SkipOnRegisters := by
  unfold Obligations.SkipOnRegisters
  refine ⟨fun x nn s => ⟨_, exec_sneByte x nn s, fun h => ?_, fun h => ?_, s.skipIf_onlyChanges _⟩,
    fun x y s => ⟨_, exec_seReg x y s, fun h => ?_, fun h => ?_, s.skipIf_onlyChanges _⟩,
    fun x y s => ⟨_, exec_sneReg x y s, fun h => ?_, fun h => ?_, s.skipIf_onlyChanges _⟩⟩
  · exact State.skipIf_pc_of_true (decide_eq_true h)
  · exact State.skipIf_pc_of_false (decide_eq_false (not_not.2 h))
  · exact State.skipIf_pc_of_true (decide_eq_true h)
  · exact State.skipIf_pc_of_false (decide_eq_false h)
  · exact State.skipIf_pc_of_true (decide_eq_true h)
  · exact State.skipIf_pc_of_false (decide_eq_false (not_not.2 h))

end Sys2Proof.Machine

/-! PROOF. Register, arithmetic and logic (spec/42_alu.md R131 to R142): a result goes to `Vx`, a flag to VF after
it, and the two shapes of state are said once each. -/

namespace Sys2Proof.Machine

section Results

/-- What a result written to `Vx` and the advance leave as it was (R130 to R135, R193). -/
theorem State.writeV_advance_frame (s : State) (x : RegId) (v : Byte) :
    s.keepsRegsBut (s.writeV x v).advance [x] ∧ (s.writeV x v).advance.pc = s.pc + 2 ∧
      s.onlyChanges (s.writeV x v).advance [.V, .pc] :=
  ⟨s.writeV_keepsRegsBut x v, rfl, s.writeV_advance_onlyChanges x v⟩

/-- What a result written to `Vx`, its flag and the advance leave as it was (R142). -/
theorem State.writeVFlag_advance_frame (s : State) (x : RegId) (r f : Byte) :
    s.keepsRegsBut (s.writeVFlag x r f).advance [x, vF] ∧ (s.writeVFlag x r f).advance.pc = s.pc + 2 ∧
      s.onlyChanges (s.writeVFlag x r f).advance [.V, .pc] :=
  ⟨s.writeVFlag_keepsRegsBut x r f, rfl, (s.writeVFlag_onlyChanges x r f).advance⟩

/-! ## The values of the flags and of the shifts -/

theorem flagByte_carry (a b : Byte) :
    flagByte (checkedAdd a b).2 = if a.toNat + b.toNat > 255 then 1 else 0 := by
  simp [flagByte, checkedAdd]

theorem flagByte_not_borrow (a b : Byte) :
    flagByte (!(checkedSub a b).2) = if a.toNat < b.toNat then 0 else 1 := by
  by_cases h : a.toNat < b.toNat <;> simp [flagByte, checkedSub, h]

/-- A flag made of one bit of a byte is that bit as a number. -/
theorem flagByte_getLsbD_toNat (t : Byte) (k : Nat) : (flagByte (t.getLsbD k)).toNat = t.toNat / 2 ^ k % 2 := by
  rw [← BitVec.testBit_toNat, Nat.testBit_eq_decide_div_mod_eq, flagByte]
  have hbit := Nat.mod_two_eq_zero_or_one (t.toNat / 2 ^ k)
  obtain h | h := hbit <;> simp [h]

theorem shiftRight_flag_toNat (t : Byte) : (flagByte (shiftRight t).2).toNat = t.toNat % 2 :=
  (flagByte_getLsbD_toNat t 0).trans (by rw [Nat.pow_zero, Nat.div_one])

theorem shiftLeft_flag_toNat (t : Byte) : (flagByte (shiftLeft t).2).toNat = t.toNat / 128 := by
  have := t.isLt
  exact (flagByte_getLsbD_toNat t 7).trans (Nat.mod_eq_of_lt (by omega))

theorem shiftRight_toNat (t : Byte) : (shiftRight t).1.toNat = t.toNat / 2 := by
  rw [shiftRight, BitVec.toNat_ushiftRight, Nat.shiftRight_eq_div_pow, Nat.pow_one]

theorem shiftLeft_toNat (t : Byte) : (shiftLeft t).1.toNat = 2 * t.toNat % 256 := by
  rw [shiftLeft, BitVec.toNat_shiftLeft, Nat.shiftLeft_eq, Nat.pow_one, Nat.mul_comm]

/-! ## The word of `ADD Vx, Vy` -/

theorem decode_of_family_8_4 {w : Word} (hop : fieldOP w = 8) (hn : fieldN w = 4) :
    decode w = .ok (.addReg (fieldX w) (fieldY w)) :=
  decode_of_row (i := .addReg 0 0) ((and_F00F w 0x8004 rfl rfl).2 ⟨hop, hn⟩)

end Results

/-- Settles O10: both are one register write, of the sum or of the other register. -/
theorem addImmediateAndMove : Obligations.AddImmediateAndMove := by
  unfold Obligations.AddImmediateAndMove
  exact ⟨fun x nn s => ⟨_, rfl, (congrArg BitVec.toNat (s.writeV_V_self x _)).trans (checkedAdd_toNat _ _),
      s.writeV_advance_frame x _⟩,
    fun x y s => ⟨_, rfl, s.writeV_V_self x _, s.writeV_advance_frame x _⟩⟩

/-- Settles O11: `Vx` is the bitwise operation of two bytes, read bit by bit. -/
theorem logicIsBitwise : Obligations.LogicIsBitwise := by
  unfold Obligations.LogicIsBitwise
  refine ⟨fun x y s => ⟨_, rfl, fun k _ => ?_, s.writeV_advance_frame x _⟩,
    fun x y s => ⟨_, rfl, fun k _ => ?_, s.writeV_advance_frame x _⟩,
    fun x y s => ⟨_, rfl, fun k _ => ?_, s.writeV_advance_frame x _⟩⟩
  · exact (congrArg (BitVec.getLsbD · k) (s.writeV_V_self x _)).trans BitVec.getLsbD_or
  · exact (congrArg (BitVec.getLsbD · k) (s.writeV_V_self x _)).trans BitVec.getLsbD_and
  · exact (congrArg (BitVec.getLsbD · k) (s.writeV_V_self x _)).trans BitVec.getLsbD_xor

/-- Settles O12: the flag is written last, so it stands in VF for every `X`. -/
theorem addSetsCarry : Obligations.AddSetsCarry := by
  unfold Obligations.AddSetsCarry
  refine ⟨fun w => decode_of_family_8_4, fun x y s => ⟨_, rfl, ?_, fun hx => ?_, s.writeVFlag_advance_frame x _ _⟩⟩
  · exact (s.writeVFlag_V_vF x _ _).trans (flagByte_carry _ _)
  · exact (congrArg BitVec.toNat (State.writeVFlag_V_self hx s _ _)).trans (checkedAdd_toNat _ _)

/-- Settles O13: the flag is the negated borrow, written last. -/
theorem subtractSetsNotBorrow : Obligations.SubtractSetsNotBorrow := by
  unfold Obligations.SubtractSetsNotBorrow
  refine fun x y s => ⟨_, rfl, ?_, fun hx => ?_, s.writeVFlag_advance_frame x _ _⟩
  · exact (s.writeVFlag_V_vF x _ _).trans (flagByte_not_borrow _ _)
  · exact (congrArg (fun v : Byte => (v.toNat : Int)) (State.writeVFlag_V_self hx s _ _)).trans (checkedSub_toNat _ _)

/-- Settles O14: the subtraction of O13 with the operands the other way round. -/
theorem reverseSubtractSetsNotBorrow : Obligations.ReverseSubtractSetsNotBorrow := by
  unfold Obligations.ReverseSubtractSetsNotBorrow
  refine fun x y s => ⟨_, rfl, ?_, fun hx => ?_, s.writeVFlag_advance_frame x _ _⟩
  · exact (s.writeVFlag_V_vF x _ _).trans (flagByte_not_borrow _ _)
  · exact (congrArg (fun v : Byte => (v.toNat : Int)) (State.writeVFlag_V_self hx s _ _)).trans (checkedSub_toNat _ _)

/-- Settles O15: the bit shifted out is the remainder by 2, the result the quotient. -/
theorem shiftRightReportsBit0 : Obligations.ShiftRightReportsBit0 := by
  unfold Obligations.ShiftRightReportsBit0
  refine fun x y s => ⟨_, rfl, ?_, fun hx => ?_, s.writeVFlag_advance_frame x _ _⟩
  · exact (congrArg BitVec.toNat (s.writeVFlag_V_vF x _ _)).trans (shiftRight_flag_toNat _)
  · exact (congrArg BitVec.toNat (State.writeVFlag_V_self hx s _ _)).trans (shiftRight_toNat _)

/-- Settles O16: the bit shifted out is the quotient by 128. -/
theorem shiftLeftReportsBit7 : Obligations.ShiftLeftReportsBit7 := by
  unfold Obligations.ShiftLeftReportsBit7
  refine fun x y s => ⟨_, rfl, ?_, fun hx => ?_, s.writeVFlag_advance_frame x _ _⟩
  · exact (congrArg BitVec.toNat (s.writeVFlag_V_vF x _ _)).trans (shiftLeft_flag_toNat _)
  · exact (congrArg BitVec.toNat (State.writeVFlag_V_self hx s _ _)).trans (shiftLeft_toNat _)

/-- Settles O17, for every value of the free byte. -/
theorem randomByteUnderMask : Obligations.RandomByteUnderMask := by
  unfold Obligations.RandomByteUnderMask
  refine fun x nn s => ⟨_, rfl, fun k _ => ?_, rfl, s.writeV_keepsRegsBut x _, rfl, ?_⟩
  · exact (congrArg (BitVec.getLsbD · k) (s.writeV_V_self x _)).trans BitVec.getLsbD_and
  · exact ((s.writeV_onlyChanges x _).trans (State.countDraw_onlyChanges _)).advance.mono
      (show [Part.V, .draws, .pc] ⊆ [.V, .pc, .draws] by decide)

/-- Settles O43: the flag clauses are those of O12 to O16, and an instruction that does not name VF keeps it by the
frame of its destinations. -/
theorem flagConventionOnVF : Obligations.FlagConventionOnVF := by
  unfold Obligations.FlagConventionOnVF
  have not_borrow : ∀ a b : Byte, (if a.toNat < b.toNat then (0 : Byte) else 1) =
      if b.toNat ≤ a.toNat then 1 else 0 := fun a b => by
    by_cases h : a.toNat < b.toNat
    · rw [if_pos h, if_neg (not_le.2 h)]
    · rw [if_neg h, if_pos (not_lt.1 h)]
  refine ⟨fun x y s => ⟨?_, ?_, ?_, ?_, ?_⟩, fun i s hF => ?_⟩
  · obtain ⟨t, he, hV, -⟩ := addSetsCarry.2 x y s
    exact ⟨t, he, hV⟩
  · obtain ⟨t, he, hV, -⟩ := subtractSetsNotBorrow x y s
    exact ⟨t, he, hV.trans (not_borrow _ _)⟩
  · obtain ⟨t, he, hV, -⟩ := reverseSubtractSetsNotBorrow x y s
    exact ⟨t, he, hV.trans (not_borrow _ _)⟩
  · obtain ⟨t, he, hV, -⟩ := shiftRightReportsBit0 x y s
    exact ⟨t, he, hV⟩
  · obtain ⟨t, he, hV, -⟩ := shiftLeftReportsBit7 x y s
    exact ⟨t, he, hV⟩
  · obtain ⟨t, he, -, hregs⟩ := accessMatrix i s
    exact ⟨t, he, hregs vF hF⟩

end Sys2Proof.Machine

/-! PROOF. The address register and memory (spec/43_index_memory.md R160 to R166), the bytes a LoadROM places and the
state after Reset: a run of stores is read back byte by byte, inside it and outside it. -/

namespace Sys2Proof.Machine

section StoredBytes

variable {s : State} {m : Memory} {a b k : Nat} {vs : List Byte}

/-! ## A run of stores read back -/

theorem Memory.read_writeBytes_inside (hm : m.wf = true) (ha : a + vs.length ≤ Config.memSize)
    (hk : k < vs.length) : (m.writeBytes a vs).read (a + k) = vs[k] := by
  rw [Memory.read_writeBytes hm ha, if_pos (Nat.le_add_right a k), Nat.add_sub_cancel_left,
    List.getD_eq_getElem _ _ hk]

theorem Memory.read_writeBytes_outside (hm : m.wf = true) (ha : a + vs.length ≤ Config.memSize)
    (hb : ¬(a ≤ b ∧ b < a + vs.length)) : (m.writeBytes a vs).read b = m.read b := by
  rw [Memory.read_writeBytes hm ha]
  split
  · exact List.getD_eq_default _ _ (by omega)
  · rfl

theorem glyphAddr_toNat (v : Byte) : (glyphAddr v).toNat = 5 * v.toNat := by
  have := v.isLt
  rw [glyphAddr, BitVec.toNat_ofNat]
  omega

theorem State.effAddr_eq_add (s : State) (k : Nat) : s.effAddr k = s.effAddr 0 + k := rfl

/-- Register `k` is byte `k` of what `LD [I], Vx` stores. -/
theorem State.getElem_regsTo (s : State) (x k : RegId) (h : k.val < (s.regsTo x).length) :
    (s.regsTo x)[k.val] = s.V[k] := by
  simp [State.regsTo]

/-! ## The register dump -/

/-- The state a register dump inside memory ends in. -/
def State.dumped (s : State) (x : RegId) : State :=
  (s.setMem (s.mem.writeBytes (s.effAddr 0) (s.regsTo x))).advance

theorem State.dumped_inside (hm : s.mem.wf = true) {x k : RegId} (hx : s.I.toNat + x.val ≤ 0xFFF) (hk : k ≤ x) :
    (s.dumped x).mem.read (s.I.toNat + k.val) = s.V[k] := by
  have hlt : k.val < (s.regsTo x).length := s.length_regsTo x ▸ Nat.lt_succ_of_le hk
  exact (Memory.read_writeBytes_inside hm (State.regsTo_inside hx) hlt).trans
    (s.getElem_regsTo x k hlt)

theorem State.dumped_outside (hm : s.mem.wf = true) {x : RegId} (hx : s.I.toNat + x.val ≤ 0xFFF) :
    s.keepsMemBut (s.dumped x) (s.effAddr 0) (x.val + 1) := by
  intro b hb
  rw [← s.length_regsTo x] at hb
  exact Memory.read_writeBytes_outside hm (State.regsTo_inside hx) hb

theorem exec_dump {x : RegId} (h : s.I.toNat + x.val ≤ 0xFFF) : exec (.dump x) s = .next (s.dumped x) :=
  exec_dump_of_le h

/-! ## Fetch, LoadROM, Reset -/

theorem State.fetchWord_of_le (h : s.pc.toNat ≤ 0xFFE) :
    s.fetchWord = some (combine (s.mem.read (s.pc.toNat + 1)) (s.mem.read s.pc.toNat)) :=
  if_neg (not_lt.2 h)

theorem loadROM_of_le {bytes : List Byte} (hf : s.fault = none) (h : bytes.length ≤ 3584) :
    loadROM bytes s = s.setMem (s.mem.writeBytes Config.romBase bytes) := by
  rw [loadROM, if_neg (not_not.2 hf), if_neg (not_lt.2 h)]

theorem loadROM_of_gt {bytes : List Byte} (hf : s.fault = none) (h : 3584 < bytes.length) :
    loadROM bytes s = s.raise (.outOfRange .romLoad bytes.length) := by
  rw [loadROM, if_neg (not_not.2 hf), if_pos h]

/-- After Reset and the load of an image that fits, byte `k` from 0x200 is the image's, or zero past its end. -/
theorem read_loadROM_resetMachine (s : State) {bytes : List Byte} (h : bytes.length ≤ 3584) (k : Nat) :
    (loadROM bytes (resetMachine s)).mem.read (512 + k) = bytes.getD k 0 := by
  have hmem : (resetMachine s).mem = [] := rfl
  have hfont : Config.font.length ≤ 512 + k := (show 80 ≤ 512 by decide).trans (Nat.le_add_right _ k)
  rw [loadROM_of_le rfl h, State.setMem_mem, hmem, Memory.read_writeBytes Memory.wf_nil (romBase_add_le h),
    if_pos (Nat.le_add_right _ k), Nat.add_sub_cancel_left]
  exact congrArg (bytes.getD k) (List.getD_eq_default _ _ hfont)

end StoredBytes

/-- Settles O19: each of the three writes `I` and advances. -/
theorem indexRegisterIsSet : Obligations.IndexRegisterIsSet := by
  unfold Obligations.IndexRegisterIsSet
  refine ⟨fun nnn s => ⟨_, rfl, zextAddr_toNat nnn, rfl, (s.setI_onlyChanges _).advance⟩,
    fun x s => ⟨_, rfl, ?_, rfl, (s.setI_onlyChanges _).advance⟩,
    fun x s => ⟨_, rfl, glyphAddr_toNat _, rfl, (s.setI_onlyChanges _).advance⟩⟩
  rw [State.advance_I, State.setI_I, BitVec.toNat_add, zextByte_toNat]
  rfl

/-- Settles O20: the three digits are a run of three stores. -/
theorem bcdStoresDigits : Obligations.BcdStoresDigits := by
  unfold Obligations.BcdStoresDigits
  intro x s hm hI
  have hrange := State.bcdDigits_inside hI (s.readV x)
  have hv := s.V[x].isLt
  have digit : ∀ {k n : Nat} (hk : k < 3), (bcdDigits (s.readV x))[k] = BitVec.ofNat 8 n → n < 256 →
      ((s.mem.writeBytes (s.effAddr 0) (bcdDigits (s.readV x))).read (s.effAddr k)).toNat = n := by
    intro k n hk hdigit hn
    rw [s.effAddr_eq_add k, Memory.read_writeBytes_inside hm hrange hk, hdigit, BitVec.toNat_ofNat,
      Nat.mod_eq_of_lt hn]
  exact ⟨_, exec_bcd_of_le hI, digit (by decide) rfl (by omega), digit (by decide) rfl (by omega),
    digit (by decide) rfl (by omega), fun b hb => Memory.read_writeBytes_outside hm hrange hb, rfl,
    (s.setMem_onlyChanges _).advance⟩

/-- Settles O21: the dump is a run of `X + 1` stores. -/
theorem dumpStoresRegisters : Obligations.DumpStoresRegisters := by
  unfold Obligations.DumpStoresRegisters
  exact fun x s hm hI => ⟨_, exec_dump hI, fun k hk => State.dumped_inside hm hI hk, State.dumped_outside hm hI, rfl,
    (s.setMem_onlyChanges _).advance⟩

/-- Settles O22: the load's two cases, up to `Vx` and above it. -/
theorem loadReadsRegisters : Obligations.LoadReadsRegisters := by
  unfold Obligations.LoadReadsRegisters
  exact fun x s hI => ⟨_, exec_load_of_le hI, fun k hk => (s.loadRegs_V_apply x k).trans (if_pos hk),
    fun k hk => (s.loadRegs_V_apply x k).trans (if_neg (not_le.2 hk)), by simp, (s.loadRegs_onlyChanges x).advance⟩

/-- Settles O23: out of range each of the four raises its fault and writes nothing else. -/
theorem memoryRangeFaults : Obligations.MemoryRangeFaults := by
  unfold Obligations.MemoryRangeFaults
  exact ⟨fun x s h => ⟨_, exec_bcd_of_gt h, rfl, rfl, s.raise_onlyChanges _⟩,
    fun x s h => ⟨_, exec_dump_of_gt h, rfl, rfl, s.raise_onlyChanges _⟩,
    fun x s h => ⟨_, exec_load_of_gt h, rfl, rfl, s.raise_onlyChanges _⟩,
    fun x y n s h0 h => ⟨_, exec_drw_of_gt h0 h, rfl, rfl, s.raise_onlyChanges _⟩⟩

/-- Settles O24: the load reads the bytes the dump stored. -/
theorem dumpThenLoadRestores : Obligations.DumpThenLoadRestores := by
  unfold Obligations.DumpThenLoadRestores
  refine fun x s hm hI => ⟨_, exec_dump hI, fun u hu hmem => ?_⟩
  have huI : u.I = s.I := hu
  refine ⟨_, exec_load_of_le (huI ▸ hI), fun k hk => ?_⟩
  calc (u.loadRegs x).advance.V[k]
      = u.mem.read (u.effAddr k.val) := (u.loadRegs_V_apply x k).trans (if_pos hk)
    _ = u.mem.read (s.I.toNat + k.val) := by rw [State.effAddr, huI]
    _ = (s.dumped x).mem.read (s.I.toNat + k.val) := hmem k.val hk
    _ = s.V[k] := State.dumped_inside hm hI hk

/-- Settles O25: the fetch reads the two bytes the dump stored there. -/
theorem storedBytesAreFetched : Obligations.StoredBytesAreFetched := by
  unfold Obligations.StoredBytesAreFetched
  refine fun x s k hk hm hI => ⟨_, exec_dump hI, fun u hmem hpc => ?_⟩
  have hhigh := State.dumped_inside hm hI (k := ⟨k, by omega⟩) hk.le
  have hlow := State.dumped_inside hm hI (k := ⟨k + 1, by omega⟩) hk
  rw [State.fetchWord_of_le (by omega), hmem, hpc]
  exact congrArg some (congrArg₂ combine hlow hhigh)

/-- Settles O50: the image is one run of stores from 0x200. -/
theorem loadRomCopiesImage : Obligations.LoadRomCopiesImage := by
  unfold Obligations.LoadRomCopiesImage
  refine ⟨fun s bytes hf hm hlen => ?_, fun s bytes hf hlen => ?_⟩
  · rw [loadROM_of_le hf hlen]
    exact ⟨fun k hk => Memory.read_writeBytes_inside hm (romBase_add_le hlen) hk,
      fun b hb => Memory.read_writeBytes_outside hm (romBase_add_le hlen) hb, s.setMem_onlyChanges _⟩
  · rw [loadROM_of_gt hf hlen]
    exact ⟨rfl, rfl, s.raise_onlyChanges _⟩

/-- Settles O52: memory lists nothing, so every byte reads as its reset contents. -/
theorem resetLeavesResetValues : Obligations.ResetLeavesResetValues := by
  unfold Obligations.ResetLeavesResetValues
  refine fun s => ⟨_, rfl, fun r => Vector.getElem_replicate r.isLt, rfl, rfl, rfl,
    fun k => Vector.getElem_replicate k.isLt, rfl, rfl, fun k => Vector.getElem_replicate k.isLt,
    Framebuffer.pixel_blank, rfl, rfl, rfl, rfl, rfl, fun a ha => ?_, fun a ha => List.getD_eq_default _ _ ha⟩
  have hfont : a < Config.font.length := ha
  rw [List.getElem?_eq_getElem hfont]
  exact congrArg some (List.getD_eq_getElem _ 0 hfont).symm

/-- Settles O53: pc is 0x200, and the bytes there are the image's. -/
theorem entryPointIsFixed : Obligations.EntryPointIsFixed := by
  unfold Obligations.EntryPointIsFixed
  refine fun s => ⟨⟨rfl, State.fetchWord_of_le (show (0x200 : Word).toNat ≤ 0xFFE by decide)⟩, fun bytes hlen => ?_⟩
  have hpc : (loadROM bytes (resetMachine s)).pc = 0x200 := by rw [loadROM_of_le rfl hlen]; rfl
  refine ⟨hpc, ?_⟩
  rw [State.fetchWord_of_le (by rw [hpc]; decide), hpc]
  exact congrArg some (congrArg₂ combine (read_loadROM_resetMachine s hlen 1)
    (read_loadROM_resetMachine s hlen 0))

end Sys2Proof.Machine

/-! PROOF. Display (spec/44_display.md R180 to R183): what `Canvas.drawRows_spec` says of the rows of a sprite, said of
the sprite in memory and then of the state after `DRW`. -/

namespace Sys2Proof.Machine

section Sprites

theorem Memory.length_readBytes (m : Memory) (a n : Nat) : (m.readBytes a n).length = n := by
  simp [Memory.readBytes]

theorem Memory.getD_readBytes (m : Memory) (a : Nat) {k n : Nat} (hk : k < n) :
    (m.readBytes a n).getD k 0 = m.read (a + k) := by
  simp [Memory.readBytes, hk]

/-- The rows read from memory at `I` are the sprite of R182. -/
theorem State.rowsBit_eq_spriteBit (s : State) (vx vy : Byte) (n px py : Nat) :
    rowsBit (vx.toNat % 64) (vy.toNat % 32) 0 (s.mem.readBytes (s.effAddr 0) n) px py =
      s.spriteBit vx vy n px py := by
  rw [rowsBit, State.spriteBit, Memory.length_readBytes, Nat.add_zero]
  by_cases hrow : vy.toNat % 32 ≤ py ∧ py < vy.toNat % 32 + n
  · obtain ⟨htop, hbottom⟩ := hrow
    rw [Memory.getD_readBytes _ _ (by omega)]
    simp [colBit, htop, hbottom, State.effAddr]
  · obtain h | h := not_and_or.1 hrow <;> simp [h]

/-- Every pixel after a sprite is drawn (R181, R183). -/
theorem State.pixel_drawSprite (s : State) (vx vy : Byte) (n : Nat) {px py : Nat} (hx : px < 64) (hy : py < 32) :
    (s.drawSprite vx vy n).fb.pixel px py = (s.fb.pixel px py ^^ s.spriteBit vx vy n px py) := by
  rw [← s.rowsBit_eq_spriteBit]
  exact (Canvas.drawRows_spec _ _ _ 0 _).1 px py hx hy

/-- The collision bit after a sprite is drawn on a canvas that begins without one (R181). -/
theorem State.collision_drawSprite (s : State) (vx vy : Byte) (n : Nat) :
    (s.drawSprite vx vy n).collision = true ↔ s.spriteCollides vx vy n := by
  refine (Canvas.drawRows_spec _ _ _ 0 _).2.trans ?_
  simp only [Bool.false_eq_true, false_or, s.rowsBit_eq_spriteBit]
  rfl

/-! ## The state after `DRW` -/

variable {s : State} {x y : RegId} {n : Nat}

theorem State.pixel_draw {px py : Nat} (hx : px < 64) (hy : py < 32) :
    (s.draw x y n).fb.pixel px py = (s.fb.pixel px py ^^ s.spriteBit s.V[x] s.V[y] n px py) :=
  s.pixel_drawSprite _ _ n hx hy

theorem State.draw_V_vF : (s.draw x y n).V[vF] = flagByte (s.drawSprite s.V[x] s.V[y] n).collision :=
  State.writeV_V_self (s.setFb _) vF _

theorem State.draw_V_vF_of_collides (h : s.spriteCollides s.V[x] s.V[y] n) : (s.draw x y n).V[vF] = 1 := by
  rw [State.draw_V_vF, (s.collision_drawSprite _ _ n).2 h]
  rfl

theorem State.draw_V_vF_of_not_collides (h : ¬s.spriteCollides s.V[x] s.V[y] n) : (s.draw x y n).V[vF] = 0 := by
  rw [State.draw_V_vF, Bool.eq_false_iff.2 (mt (s.collision_drawSprite _ _ n).1 h)]
  rfl

theorem State.draw_V_vF_eq_one_iff : (s.draw x y n).V[vF] = 1 ↔ s.spriteCollides s.V[x] s.V[y] n := by
  refine ⟨fun h => ?_, State.draw_V_vF_of_collides⟩
  by_contra hno
  rw [State.draw_V_vF_of_not_collides hno] at h
  exact absurd h (by decide)

/-- A draw keeps the sprite: neither memory nor `I` is written. -/
theorem State.spriteBit_draw (vx vy : Byte) (px py : Nat) :
    (s.draw x y n).spriteBit vx vy n px py = s.spriteBit vx vy n px py := rfl

theorem State.draw_V_of_ne {k : RegId} (hk : k ≠ vF) : (s.draw x y n).V[k] = s.V[k] :=
  s.draw_keepsRegsBut x y n k (mt List.mem_singleton.1 hk)

/-- The second of two draws with the same corner takes the exclusive OR with the same bits, so it undoes the
first. -/
theorem State.draw_draw_fb (hx : x ≠ vF) (hy : y ≠ vF) : ((s.draw x y n).draw x y n).fb = s.fb := by
  refine Framebuffer.ext_pixel fun px py hpx hpy => ?_
  rw [State.pixel_draw hpx hpy, State.pixel_draw hpx hpy, State.draw_V_of_ne hx, State.draw_V_of_ne hy,
    State.spriteBit_draw, Bool.xor_assoc, Bool.xor_self, Bool.xor_false]

/-- After a draw without collision every sprite bit on the screen is a pixel that is on, so the second draw collides
where the sprite has a bit (C2). -/
theorem State.draw_spriteCollides_iff (hx : x ≠ vF) (hy : y ≠ vF) (hfirst : ¬s.spriteCollides s.V[x] s.V[y] n) :
    (s.draw x y n).spriteCollides (s.draw x y n).V[x] (s.draw x y n).V[y] n ↔
      ∃ px py, px < 64 ∧ py < 32 ∧ s.spriteBit s.V[x] s.V[y] n px py = true := by
  rw [State.draw_V_of_ne hx, State.draw_V_of_ne hy]
  constructor
  · rintro ⟨px, py, hpx, hpy, hbit, -⟩
    exact ⟨px, py, hpx, hpy, hbit⟩
  · rintro ⟨px, py, hpx, hpy, hbit⟩
    have hoff : s.fb.pixel px py = false :=
      Bool.eq_false_iff.2 fun hon => hfirst ⟨px, py, hpx, hpy, hbit, hon⟩
    exact ⟨px, py, hpx, hpy, hbit, by rw [State.pixel_draw hpx hpy, hoff, hbit]; rfl⟩

end Sprites

/-- Settles O26: the blank framebuffer has no pixel on. -/
theorem clearScreenBlanks : Obligations.ClearScreenBlanks := by
  unfold Obligations.ClearScreenBlanks
  exact fun s => ⟨_, rfl, fun px py _ _ => Framebuffer.pixel_blank px py, rfl, (s.setFb_onlyChanges _).advance⟩

/-- Settles O27: the pixels and VF are those of the sprite drawn from the registers as they were. -/
theorem drawXorsSprite : Obligations.DrawXorsSprite := by
  unfold Obligations.DrawXorsSprite
  exact fun x y n s h => ⟨_, exec_drw_of_le h, fun px py hpx hpy => State.pixel_draw hpx hpy,
    State.draw_V_vF_of_collides, State.draw_V_vF_of_not_collides, s.draw_keepsRegsBut x y n, rfl,
    s.draw_onlyChanges x y n⟩

/-- Settles O28: the second draw has the same corner, since its registers are not VF. -/
theorem drawTwiceRestoresScreen : Obligations.DrawTwiceRestoresScreen := by
  unfold Obligations.DrawTwiceRestoresScreen
  refine fun x y n s hx hy h => ⟨_, exec_drw_of_le h, _, exec_drw_of_le h, State.draw_draw_fb hx hy, fun hF => ?_⟩
  have hfirst : ¬s.spriteCollides s.V[x] s.V[y] n := fun hc =>
    absurd ((State.draw_V_vF_of_collides hc).symm.trans hF) (by decide)
  exact State.draw_V_vF_eq_one_iff.trans (State.draw_spriteCollides_iff hx hy hfirst)

/-- Settles O51: byte `y*64 + x` has the row `y` as its quotient by 64 and the column `x` as its remainder. -/
theorem readFramebufferExports : Obligations.ReadFramebufferExports := by
  unfold Obligations.ReadFramebufferExports
  refine fun s => ⟨rfl, ?_, fun px py hpx hpy => ?_⟩
  · exact (List.length_map _).trans List.length_range
  · have hindex : py * 64 + px < 64 * 32 := by omega
    have hcol : (py * 64 + px) % 64 = px := by omega
    have hrow : (py * 64 + px) / 64 = py := by omega
    simp [readFramebuffer, hindex, hcol, hrow]

end Sys2Proof.Machine

/-! PROOF. Keypad and timer instructions and the KeyEvent (spec/45_keypad_timers.md R190 to R195,
spec/40_sequencer.md R99). -/

namespace Sys2Proof.Machine

section Keys

variable {s : State}

/-- The converse of `State.leastKey_some`: the least key that is down is the one the wait takes. -/
theorem State.leastKey_eq_some {k : Fin Config.nKeys} (hk : s.keypad[k] = true)
    (hleast : ∀ j : Fin Config.nKeys, j < k → s.keypad[j] = false) : s.leastKey = some k := by
  cases hl : s.leastKey with
  | none => exact absurd (hk.symm.trans (State.leastKey_none.1 hl k)) (by decide)
  | some j =>
    obtain ⟨hj, hjleast⟩ := State.leastKey_some hl
    obtain hlt | rfl | hgt := lt_trichotomy j k
    · exact absurd (hj.symm.trans (hleast j hlt)) (by decide)
    · rfl
    · exact absurd (hk.symm.trans (hjleast k hgt)) (by decide)

theorem keyCode_toNat (k : Fin Config.nKeys) : (keyCode k).toNat = k.val :=
  Nat.mod_eq_of_lt (k.isLt.trans (by decide))

/-- A KeyEvent of key 0 to 15 of a machine without a fault (R99). -/
theorem keyEvent_of_lt (hf : s.fault = none) (k : Fin Config.nKeys) (up : Bool) :
    keyEvent k.val up s = if up then s.setKey k false else (s.setKey k true).setHalted false := by
  rw [keyEvent, if_neg (not_not.2 hf), dif_pos k.isLt]

theorem keyEvent_keypad_of_ne (hf : s.fault = none) {k j : Fin Config.nKeys} (hj : j ≠ k) (up : Bool) :
    (keyEvent k.val up s).keypad[j] = s.keypad[j] := by
  have hset : ∀ b, (s.keypad.set k b)[j] = s.keypad[j] := fun b =>
    Vector.getElem_set_ne k.isLt j.isLt fun h => hj (Fin.ext h.symm)
  rw [keyEvent_of_lt hf]
  cases up
  · exact hset true
  · exact hset false

theorem keyEvent_onlyChanges (hf : s.fault = none) (k : Fin Config.nKeys) (up : Bool) :
    s.onlyChanges (keyEvent k.val up s) [.keypad, .halted] := by
  rw [keyEvent_of_lt hf]
  cases up
  · exact (s.setKey_onlyChanges k true).trans (State.setHalted_onlyChanges _ false)
  · exact (s.setKey_onlyChanges k false).mono (show [Part.keypad] ⊆ [.keypad, .halted] by decide)

theorem keyEvent_of_gt {key : Nat} (hkey : 15 < key) (up : Bool) : keyEvent key up s = s := by
  unfold keyEvent
  split
  · rfl
  · exact dif_neg (not_lt.2 hkey)

end Keys

/-- Settles O29: the condition on the slot decides between two values of `pc`. -/
theorem skipOnKey : Obligations.SkipOnKey := by
  unfold Obligations.SkipOnKey
  refine ⟨fun x s h => ⟨_, exec_skp_of_lt h, State.skipIf_pc_of_true, State.skipIf_pc_of_false,
    s.skipIf_onlyChanges _⟩, fun x s h => ⟨_, exec_sknp_of_lt h, fun hup => ?_, fun hdown => ?_,
    s.skipIf_onlyChanges _⟩⟩
  · exact State.skipIf_pc_of_true (congrArg not hup)
  · exact State.skipIf_pc_of_false (congrArg not hdown)

/-- Settles O30: both are the failed key check, which writes nothing else. -/
theorem keyCodeAbove15Faults : Obligations.KeyCodeAbove15Faults := by
  unfold Obligations.KeyCodeAbove15Faults
  intro x s h i hi
  obtain rfl | rfl := List.mem_pair.1 hi
  · exact ⟨_, exec_skp_of_gt h, rfl, rfl, s.raise_onlyChanges _⟩
  · exact ⟨_, exec_sknp_of_gt h, rfl, rfl, s.raise_onlyChanges _⟩

/-- Settles O31: the wait finds that key, and takes it as a register value. -/
theorem keyWaitTakesLeastKey : Obligations.KeyWaitTakesLeastKey := by
  unfold Obligations.KeyWaitTakesLeastKey
  exact fun x s k hk hleast => ⟨_, exec_waitKey_of_some (State.leastKey_eq_some hk hleast),
    (congrArg BitVec.toNat (s.writeV_V_self x _)).trans (keyCode_toNat k), s.writeV_advance_frame x _⟩

/-- Settles O32: the search finds no key, so only `halted` is written. -/
theorem keyWaitHalts : Obligations.KeyWaitHalts := by
  unfold Obligations.KeyWaitHalts
  exact fun x s h => ⟨_, exec_waitKey_of_none (State.leastKey_none.2 h), rfl, s.setHalted_onlyChanges true⟩

/-- Settles O33: each move writes its one destination and advances. -/
theorem timerMoves : Obligations.TimerMoves := by
  unfold Obligations.TimerMoves
  exact ⟨fun x s => ⟨_, rfl, s.writeV_V_self x _, s.writeV_advance_frame x _⟩,
    fun x s => ⟨_, rfl, rfl, rfl, (s.setDT_onlyChanges _).advance⟩,
    fun x s => ⟨_, rfl, rfl, rfl, (s.setST_onlyChanges _).advance⟩⟩

/-- Settles O49: the one slot is set, and `halted` cleared on a key-down. -/
theorem keyEventSetsSlot : Obligations.KeyEventSetsSlot := by
  unfold Obligations.KeyEventSetsSlot
  refine ⟨fun s k up hf => ⟨keyEvent_keypad_self k up hf, fun j hj => keyEvent_keypad_of_ne hf hj up, ?_,
    keyEvent_onlyChanges hf k up⟩, fun s key up hkey => keyEvent_of_gt hkey up⟩
  rw [keyEvent_of_lt hf]
  cases up
  · exact (Bool.and_false _).symm
  · exact (Bool.and_true _).symm

end Sys2Proof.Machine

/-! PROOF. The sequencer (spec/40_sequencer.md R91 to R103): a Step of a running machine by the outcome of its fetch,
of its decoder and of its instruction. -/

namespace Sys2Proof.Machine

section Steps

variable {s t : State} {w : Word} {i : Instr}

theorem State.fetchWord_of_gt (h : 0xFFE < s.pc.toNat) : s.fetchWord = none := if_pos h

theorem runStep_of_fault (h : s.fault ≠ none) : runStep s = (.next s, false) := if_pos h

theorem runStep_of_fetch_none (hr : s.running) (hw : s.fetchWord = none) :
    runStep s = (.next (s.raise (.outOfRange .fetch s.pc.toNat)), false) := by
  obtain ⟨hf, hh⟩ := hr
  simp [runStep, hf, hh, hw]

theorem runStep_of_decode_error {e : DecodeError} (hr : s.running) (hw : s.fetchWord = some w)
    (hd : decode w = .error e) :
    runStep s = (.next ((s.setOpcode w).raise (.unrecognizedInstruction w)), false) := by
  obtain ⟨hf, hh⟩ := hr
  simp [runStep, runWord, hf, hh, hw, hd]

/-- A Step that executes an instruction ends in its answer, ticked when it raised no fault (R91, R95, R96). -/
theorem step_of_exec (hr : s.running) (hw : s.fetchWord = some w) (hd : decode w = .ok i)
    (he : exec i (s.setOpcode w) = .next t) :
    step s = .next (if t.fault = none then t.tick else t) ∧
      stepTone s = (decide (t.fault = none) && decide (t.ST = 1)) := by
  rw [step, stepTone, runStep_of_decode hr hw hd, he, finishStep_next]
  by_cases hf : t.fault = none <;> simp [hf, State.tickTone]

theorem step_of_completes (hr : s.running) (hw : s.fetchWord = some w) (hd : decode w = .ok i)
    (he : exec i (s.setOpcode w) = .next t) (hf : t.fault = none) :
    step s = .next t.tick ∧ stepTone s = decide (t.ST = 1) := by
  obtain ⟨hstep, htone⟩ := step_of_exec hr hw hd he
  rw [if_pos hf] at hstep
  rw [decide_eq_true hf, Bool.true_and] at htone
  exact ⟨hstep, htone⟩

theorem byte_eq_one_iff {v : Byte} : v = 1 ↔ v.toNat = 1 := BitVec.toNat_inj.symm

theorem decode_of_decodeBytes {high low : Byte} (h : decodeBytes [high, low] = .ok (i, [])) :
    decode (combine low high) = .ok i := by
  rw [decodeBytes] at h
  split at h
  · next hd => cases h; exact hd
  · cases h

/-- Bounds do not speak of `currentOpcode`. -/
theorem staysInBounds_setOpcode (i : Instr) (s : State) (w : Word) :
    i.staysInBounds (s.setOpcode w) ↔ i.staysInBounds s := by
  cases i <;> rfl

/-- Every Step answers a next state. The timers move and the tone sounds only in a Step that executes and raises
nothing. -/
theorem step_answers (s : State) : ∃ t, step s = .next t ∧
    (s.fault ≠ none ∨ s.halted = true ∨ t.fault ≠ none → t.DT = s.DT ∧ t.ST = s.ST ∧ stepTone s = false) := by
  obtain ⟨-, e⟩ | ⟨-, -, e⟩ | ⟨-, -, -, e⟩ | ⟨hf, hh, -, w, hw, ⟨-, -, e⟩ | ⟨i, hd, -⟩⟩ := runStep_cases s
  case inr.inr.inr.inr =>
    obtain ⟨t, he⟩ := exec_answers i (s.setOpcode w)
    obtain ⟨hstep, htone⟩ := step_of_exec ⟨hf, hh⟩ hw hd he
    refine ⟨_, hstep, fun h => ?_⟩
    by_cases ht : t.fault = none
    · rw [if_pos ht] at h
      obtain h | h | h := h
      · exact absurd hf h
      · exact absurd (hh.symm.trans h) (by decide)
      · exact absurd ht h
    · obtain ⟨t', he', hframe⟩ := faultingInstructionWritesNothing i (s.setOpcode w) hf
      cases he.symm.trans he'
      rw [if_neg ht, htone, decide_eq_false ht]
      exact ⟨hframe ht .DT (by decide), hframe ht .ST (by decide), rfl⟩
  all_goals exact ⟨_, congrArg Prod.fst e, fun _ => ⟨rfl, rfl, congrArg Prod.snd e⟩⟩

end Steps

/-- Settles O34: the two bytes at pc are the fetched word. -/
theorem stepRunsDecodedInstruction : Obligations.StepRunsDecodedInstruction := by
  unfold Obligations.StepRunsDecodedInstruction
  intro s i w hr hpc _ hd hw
  obtain ⟨t, he⟩ := exec_answers i (s.setOpcode w)
  exact ⟨t, he, step_of_exec hr (hw ▸ State.fetchWord_of_le hpc) (hw ▸ decode_of_decodeBytes hd) he⟩

/-- Settles O35: the tick follows an instruction that completes, and no other Step. -/
theorem stepTicksOnce : Obligations.StepTicksOnce := by
  unfold Obligations.StepTicksOnce
  refine ⟨fun s t w i hr hw hd he hf => ?_, step_answers⟩
  obtain ⟨hstep, htone⟩ := step_of_completes hr hw hd he hf
  obtain ⟨hDT, hST⟩ := t.tick_toNat
  exact ⟨_, hstep, hDT, hST, t.tick_onlyChanges, by rw [htone, decide_eq_true_iff]; exact byte_eq_one_iff⟩

/-- Settles O36: each transaction but Reset and ReadFramebuffer tests the fault register first. -/
theorem faultedStateIsFrozen : Obligations.FaultedStateIsFrozen := by
  unfold Obligations.FaultedStateIsFrozen
  exact fun s h => ⟨congrArg Prod.fst (runStep_of_fault h), congrArg Prod.snd (runStep_of_fault h),
    fun _ _ => if_pos h, fun _ => if_pos h, rfl, rfl⟩

/-- Settles O37: the fetch finds no word. -/
theorem fetchBeyondMemoryFaults : Obligations.FetchBeyondMemoryFaults := by
  unfold Obligations.FetchBeyondMemoryFaults
  intro s hr hpc
  have e := runStep_of_fetch_none hr (State.fetchWord_of_gt hpc)
  exact ⟨_, congrArg Prod.fst e, rfl, rfl, s.raise_onlyChanges _, congrArg Prod.snd e⟩

/-- Settles O38: a word of no row does not decode. -/
theorem unrecognizedWordFaults : Obligations.UnrecognizedWordFaults := by
  unfold Obligations.UnrecognizedWordFaults
  intro s w hr hw hrows
  cases hd : decode w with
  | ok i =>
    obtain ⟨r, hr, hmatch⟩ := (decodeFollowsOpcodeMap.1 w).1 ⟨i, hd⟩
    exact absurd hmatch (hrows r hr)
  | error e =>
    have e := runStep_of_decode_error hr hw hd
    exact ⟨_, congrArg Prod.fst e, rfl, rfl, rfl, ((s.setOpcode_onlyChanges w).trans
      (State.raise_onlyChanges _ _)).mono (show [Part.currentOpcode, .fault] ⊆ [.fault, .currentOpcode] by decide),
      congrArg Prod.snd e⟩

/-- Settles O39: only the Step could stop, and it answers. -/
theorem everyTransactionAnswers : Obligations.EveryTransactionAnswers := by
  unfold Obligations.EveryTransactionAnswers
  intro tr s
  cases tr with
  | step => obtain ⟨t, ht, -⟩ := step_answers s; exact ⟨t, ht⟩
  | reset => exact ⟨_, rfl⟩
  | loadROM bytes => exact ⟨_, rfl⟩
  | keyEvent key up => exact ⟨_, rfl⟩
  | readFramebuffer => exact ⟨_, rfl⟩

/-- Settles O40: each way a Step can raise a fault is the failure of one condition. -/
theorem stepFaultsExactlyOutOfBounds : Obligations.StepFaultsExactlyOutOfBounds := by
  unfold Obligations.StepFaultsExactlyOutOfBounds
  intro s hr
  by_cases hpc : s.pc.toNat ≤ 0xFFE
  case neg =>
    have e := runStep_of_fetch_none hr (State.fetchWord_of_gt (not_le.1 hpc))
    exact ⟨_, congrArg Prod.fst e, nofun, fun h => absurd h.1 hpc⟩
  have hw := State.fetchWord_of_le hpc
  generalize combine (s.mem.read (s.pc.toNat + 1)) (s.mem.read s.pc.toNat) = w at hw ⊢
  cases hd : decode w with
  | error err =>
    have e := runStep_of_decode_error hr hw hd
    exact ⟨_, congrArg Prod.fst e, nofun, nofun⟩
  | ok i =>
    obtain ⟨hb, t, he, hf, -⟩ | ⟨hb, f, he⟩ := exec_cases i (s.setOpcode w) <;>
      rw [staysInBounds_setOpcode] at hb
    · have ht : t.fault = none := hf.trans hr.1
      exact ⟨_, (step_of_completes hr hw hd he ht).1, fun _ => ⟨hpc, i, rfl, hb⟩, fun _ => ht⟩
    · have hstep := (step_of_exec hr hw hd he).1
      rw [if_neg nofun] at hstep
      refine ⟨_, hstep, nofun, fun ⟨_, j, hj, hjb⟩ => ?_⟩
      cases hj
      exact absurd hjb hb

/-- Settles O44: an instruction reads the counter only to draw; each outcome of a bounds check is one equation in
both states. -/
theorem onlyRandomReadsTheDraw : Obligations.OnlyRandomReadsTheDraw := by
  unfold Obligations.OnlyRandomReadsTheDraw
  intro i s n hi
  cases i
  case rnd x nn => exact absurd rfl (hi x nn)
  case call nnn =>
    obtain h | h := (Nat.le_of_lt_succ s.sp.isLt).lt_or_eq
    · exact ⟨_, exec_call_of_lt nnn h, @exec_call_of_lt { s with draws := n } nnn h⟩
    · exact ⟨_, exec_call_of_full nnn h, @exec_call_of_full { s with draws := n } nnn h⟩
  case ret =>
    obtain h | h := Nat.eq_zero_or_pos s.sp.val
    · exact ⟨_, exec_ret_of_zero h, @exec_ret_of_zero { s with draws := n } h⟩
    · exact ⟨_, exec_ret_of_pos h, @exec_ret_of_pos { s with draws := n } h⟩
  case skp x =>
    obtain h | h := lt_or_ge s.V[x].toNat 16
    · exact ⟨_, exec_skp_of_lt h, @exec_skp_of_lt { s with draws := n } x h⟩
    · exact ⟨_, exec_skp_of_gt h, exec_skp_of_gt h⟩
  case sknp x =>
    obtain h | h := lt_or_ge s.V[x].toNat 16
    · exact ⟨_, exec_sknp_of_lt h, @exec_sknp_of_lt { s with draws := n } x h⟩
    · exact ⟨_, exec_sknp_of_gt h, exec_sknp_of_gt h⟩
  case waitKey x =>
    cases hk : s.leastKey with
    | some k => exact ⟨_, exec_waitKey_of_some hk, exec_waitKey_of_some hk⟩
    | none => exact ⟨_, exec_waitKey_of_none hk, exec_waitKey_of_none hk⟩
  case bcd x =>
    obtain h | h := le_or_gt (s.I.toNat + 2) 0xFFF
    · exact ⟨_, exec_bcd_of_le h, exec_bcd_of_le h⟩
    · exact ⟨_, exec_bcd_of_gt h, exec_bcd_of_gt h⟩
  case dump x =>
    obtain h | h := le_or_gt (s.I.toNat + x.val) 0xFFF
    · exact ⟨_, exec_dump_of_le h, exec_dump_of_le h⟩
    · exact ⟨_, exec_dump_of_gt h, exec_dump_of_gt h⟩
  case load x =>
    obtain h | h := le_or_gt (s.I.toNat + x.val) 0xFFF
    · exact ⟨_, exec_load_of_le h, exec_load_of_le h⟩
    · exact ⟨_, exec_load_of_gt h, exec_load_of_gt h⟩
  case drw x y k =>
    by_cases h : k = 0 ∨ s.I.toNat + k - 1 ≤ 0xFFF
    · exact ⟨_, exec_drw_of_le h, exec_drw_of_le h⟩
    · obtain ⟨hk, hI⟩ := not_or.1 h
      exact ⟨_, exec_drw_of_gt (Nat.pos_of_ne_zero hk) (not_le.1 hI),
        exec_drw_of_gt (Nat.pos_of_ne_zero hk) (not_le.1 hI)⟩
  all_goals exact ⟨_, rfl, rfl⟩

/-- Settles O45: the tick is taken on the timer just written. -/
theorem timerTicksInItsOwnStep : Obligations.TimerTicksInItsOwnStep := by
  unfold Obligations.TimerTicksInItsOwnStep
  refine ⟨fun s w x hr hw hd => ?_, fun s w x hr hw hd => ?_⟩
  · obtain ⟨hstep, -⟩ := step_of_completes hr hw hd rfl hr.1
    exact ⟨_, hstep, (State.tick_toNat).1⟩
  · obtain ⟨hstep, htone⟩ := step_of_completes hr hw hd rfl hr.1
    exact ⟨_, hstep, (State.tick_toNat).2, by rw [htone, decide_eq_true_iff]; exact byte_eq_one_iff⟩

/-- Settles O46: the target is pc's own value, so the jump writes nothing new. -/
theorem jumpToSelfIdles : Obligations.JumpToSelfIdles := by
  unfold Obligations.JumpToSelfIdles
  intro s w nnn hr hw hd hself
  have htarget : zextAddr nnn = s.pc := BitVec.eq_of_toNat_eq ((zextAddr_toNat nnn).trans hself)
  have he : exec (.jp nnn) (s.setOpcode w) = .next (s.setOpcode w) := by rw [exec_jp, htarget]; rfl
  obtain ⟨hDT, hST⟩ := (s.setOpcode w).tick_toNat
  exact ⟨_, (step_of_completes hr hw hd he hr.1).1, hDT, hST,
    (s.setOpcode_onlyChanges w).trans (State.tick_onlyChanges _)⟩

/-- Settles O48: after the key-down the machine runs, fetches the same word and finds that key the least one down. -/
theorem keyWaitResumes : Obligations.KeyWaitResumes := by
  unfold Obligations.KeyWaitResumes
  intro s w x k hf _ hup hw hd
  have hs : keyEvent k.val false s = (s.setKey k true).setHalted false := keyEvent_of_lt hf k false
  have hdown := keyEvent_keypad_self k false hf
  have hothers := fun (j : Fin 16) (hj : j ≠ k) => (keyEvent_keypad_of_ne hf hj false).trans (hup j)
  have hkeys := keyEvent_onlyChanges hf k false
  rw [hs] at hdown hothers hkeys ⊢
  have hleast : (((s.setKey k true).setHalted false).setOpcode w).leastKey = some k :=
    State.leastKey_eq_some hdown fun j hj => hothers j hj.ne
  have hr : ((s.setKey k true).setHalted false).running := ⟨hf, rfl⟩
  refine ⟨_, (step_of_completes hr hw hd (exec_waitKey_of_some hleast) hf).1, ?_,
    State.writeV_keepsRegsBut _ x _, rfl, rfl, hdown, ?_⟩
  · exact (congrArg BitVec.toNat (State.writeV_V_self _ x _)).trans (keyCode_toNat k)
  · exact (((hkeys.trans (State.setOpcode_onlyChanges _ w)).trans (State.writeV_advance_onlyChanges _ x _)).trans
      (State.tick_onlyChanges _)).mono (show [Part.keypad, .halted, .currentOpcode, .V, .pc, .DT, .ST] ⊆
        [.V, .pc, .halted, .keypad, .currentOpcode, .DT, .ST] by decide)

end Sys2Proof.Machine
